-- ==== Sys2Proof/Word.lean ====
section
/-! DEFINITION. The one data width of the machine: bytes (00_scope.md R6), and the 4-bit fields its opcodes are decoded by. -/

namespace Sys2Proof

/-- `u8` of 00_scope.md section 5: data, addresses, `ip` and `sp` are all 8 bits wide, and wrap modulo 256. -/
abbrev Byte := BitVec 8

/-- A 4-bit opcode field: a sub-selector, an offset or the low nibble (30_encoding.md R81). -/
abbrev Nibble := BitVec 4

end Sys2Proof
end

