-- ==== Sys2Proof/Machine/Memory.lean ====
section
/-! DEFINITION. The store (20_memory.md R40) as a list of (address, byte) cells in one canonical form, with its one read
and its one write. No interception here: the bus (Ops) stands in front of it. -/

namespace Sys2Proof.Machine

/-- The 256-byte store. In canonical form the addresses rise strictly, none is above 255, and no cell holds what an
unlisted address reads as; then equal stores are equal lists. -/
abbrev Memory := List Host.Cell

/-- What a byte that nothing has written reads as: DESIGN CHOICE (log 7), since the bytes before any write are the
image's, which the spec leaves to the host (70_reset_and_hazards.md R222). -/
def unlistedByte : Byte := 0x00

/-- The byte at a cell's key. -/
def Memory.lookup : Memory → Nat → Byte
  | [], _ => unlistedByte
  | c :: rest, k => if c.1 = k then c.2 else Memory.lookup rest k

/-- `StoreRead(a)` (00_scope.md section 5): the raw byte, without the console interception. -/
def Memory.read (m : Memory) (a : Byte) : Byte := m.lookup a.toNat

/-- Puts a cell before the first one of a higher address. -/
def Memory.insertCell : Memory → Nat → Byte → Memory
  | [], k, v => [(k, v)]
  | c :: rest, k, v => if k < c.1 then (k, v) :: c :: rest else c :: Memory.insertCell rest k v

/-- Takes the cell of an address out. -/
def Memory.erase (m : Memory) (k : Nat) : Memory := m.filter (fun c => c.1 != k)

/-- `StoreWrite(a, v)` (00_scope.md section 5): writing what an unlisted address reads as removes the cell. -/
def Memory.write (m : Memory) (a v : Byte) : Memory :=
  if v = unlistedByte then m.erase a.toNat else (m.erase a.toNat).insertCell a.toNat v

/-- The cells from address `lo` on are in canonical form. -/
def Memory.wfFrom (lo : Nat) : Memory → Bool
  | [] => true
  | c :: rest => decide (lo ≤ c.1) && decide (c.1 < 256) && (c.2 != unlistedByte) && Memory.wfFrom (c.1 + 1) rest

/-- The store is in canonical form. -/
def Memory.wf (m : Memory) : Bool := Memory.wfFrom 0 m

end Sys2Proof.Machine
end

