-- ==== Sys2Proof/Syntax.lean ====
section
/-! DEFINITION. The 32 instructions, one constructor per row of the opcode table, in the table's order. -/

namespace Sys2Proof

/-- The instruction set (30_encoding.md R70, R85). Operands are the opcode's own bit fields (R81), so each holds exactly
the values the encoding admits; every other operand comes from the stack. -/
inductive Instr where
  /-- push the 7-bit literal (R100) -/
  | psh (imm : BitVec 7)
  /-- add with carry-in (R111) -/
  | add (size : BitVec 2)
  /-- subtract with borrow-in (R112) -/
  | sub (size : BitVec 2)
  /-- conditional overwrite, selected by the carry flag (R113) -/
  | iff (size : BitVec 2)
  /-- exchange (R114) -/
  | swp (size : BitVec 2)
  /-- rotate left (R115) -/
  | rot (size : BitVec 2)
  /-- bitwise OR (R116) -/
  | orr (size : BitVec 2)
  /-- bitwise AND (R117) -/
  | and (size : BitVec 2)
  /-- bitwise XOR (R118) -/
  | xor (size : BitVec 2)
  /-- clear (R119) -/
  | xnd (size : BitVec 2)
  /-- add one (R131) -/
  | inc
  /-- subtract one (R132) -/
  | dec
  /-- two's-complement negate (R133) -/
  | neg
  /-- shift left through carry (R134) -/
  | shl
  /-- shift right through carry (R135) -/
  | shr
  /-- bitwise complement (R136) -/
  | not
  /-- test for zero (R137) -/
  | buf
  /-- debug request (R138) -/
  | dbg
  /-- load from the stack at an offset (R150) -/
  | ldo (offset : Nibble)
  /-- store to the stack at an offset (R151) -/
  | sto (offset : Nibble)
  /-- load from a popped address (R160) -/
  | lda
  /-- store to a popped address (R161) -/
  | sta
  /-- push the instruction pointer (R162) -/
  | ldi
  /-- jump to the popped address (R163) -/
  | sti
  /-- push the stack pointer (R164) -/
  | lds
  /-- set the stack pointer (R165) -/
  | sts
  /-- clear carry (R166) -/
  | clc
  /-- set carry (R167) -/
  | sec
  /-- toggle carry (R168) -/
  | flc
  /-- no operation (R169) -/
  | nop
  /-- discard the top of stack, no read (R170) -/
  | pop
  /-- push a negative literal from -16 to -1 (R180) -/
  | phn (n : Nibble)
  deriving DecidableEq, Repr

/-- The eight operations of the unary group: the domain of `UNARY_NIBBLE` (30_encoding.md R77). -/
inductive UnaryOp where
  | inc | dec | neg | shl | shr | not | buf | dbg
  deriving DecidableEq, Repr

/-- The eleven operations of the register/flag group: the domain of `REG_NIBBLE` (30_encoding.md R79). -/
inductive RegOp where
  | lda | sta | ldi | sti | lds | sts | clc | sec | flc | nop | pop
  deriving DecidableEq, Repr

end Sys2Proof
end

