-- ==== Sys2Proof/Config.lean ====
section
/-! DEFINITION. What the spec leaves to the device or the host: the OPEN parameters of 00_scope.md R6 as plain data, and
the one free value of the model, the host's answer to a console read. -/

namespace Sys2Proof

/-- `UNARY_NIBBLE` (30_encoding.md R77, 92_eei_decisions.md D3): the low nibble of each unary operation. -/
structure UnaryNibble where
  inc : Nibble
  dec : Nibble
  neg : Nibble
  shl : Nibble
  shr : Nibble
  not : Nibble
  buf : Nibble
  dbg : Nibble
  deriving DecidableEq, Repr

/-- `REG_NIBBLE` (30_encoding.md R79, 92_eei_decisions.md D4): the low nibble of each register/flag operation. -/
structure RegNibble where
  lda : Nibble
  sta : Nibble
  ldi : Nibble
  sti : Nibble
  lds : Nibble
  sts : Nibble
  clc : Nibble
  sec : Nibble
  flc : Nibble
  nop : Nibble
  pop : Nibble
  deriving DecidableEq, Repr

/-- The two OPEN encoding parameters together: all that decode depends on beside the opcode byte. -/
structure NibbleMaps where
  unary : UnaryNibble
  reg : RegNibble
  deriving DecidableEq, Repr

/-- The OPEN parameters of 00_scope.md R6 that describe the device. A model takes them as an argument: State carries
them, no step changes them, and a statement over all states holds for every value of them (log 1, 2, 3). -/
structure Params where
  /-- `CONSOLE_ADDR` (92_eei_decisions.md D5) -/
  consoleAddr : Byte
  /-- `UNARY_NIBBLE` and `REG_NIBBLE` (D3, D4) -/
  nibbles : NibbleMaps
  /-- `FETCH_VIA_BUS` (D6) -/
  fetchViaBus : Bool
  deriving DecidableEq, Repr

/-- The host's answer to one ask (20_memory.md R44): input is exhausted, or one byte is consumed. -/
inductive HostAnswer where
  | exhausted
  | byte (b : Byte)
  deriving DecidableEq, Repr, Inhabited

/-- One console access, as it happened (20_memory.md R44, R45). -/
inductive ConsoleEvent where
  /-- a console read took this byte from the pushback list -/
  | pushedBack (b : Byte)
  /-- a console read asked the host and got this answer -/
  | asked (answer : HostAnswer)
  /-- a console write emitted this byte as host output -/
  | emitted (b : Byte)
  deriving DecidableEq, Repr

/-- FREE VALUE, DESIGN CHOICE in form (log 4): the host's answer when no answer stands ready in `State.hostIn`, as an
uninterpreted function of everything the console has seen so far. Nothing constrains it (`HOST_INPUT`, "an oracle ...
under no law", 92_eei_decisions.md D14). -/
opaque Config.hostInput : List ConsoleEvent → HostAnswer

end Sys2Proof
end

