-- ==== Sys2Proof/WellFormed.lean ====
section
/-! DEFINITION. What must hold of a value before the spec speaks of it: the nibble maps are injective (30_encoding.md
R77, R79), and a written instruction has an operand in range (R86). An `Instr` itself needs no check: its operands are
the bit fields of the opcode, so every term is one the encoding admits. -/

namespace Sys2Proof

/-- The unary operations in the order of 30_encoding.md R77. -/
def UnaryOp.all : List UnaryOp := [.inc, .dec, .neg, .shl, .shr, .not, .buf, .dbg]

/-- The register/flag operations in the order of 30_encoding.md R79. -/
def RegOp.all : List RegOp := [.lda, .sta, .ldi, .sti, .lds, .sts, .clc, .sec, .flc, .nop, .pop]

/-- `UNARY_NIBBLE(u)`. -/
def UnaryNibble.of (m : UnaryNibble) : UnaryOp → Nibble
  | .inc => m.inc
  | .dec => m.dec
  | .neg => m.neg
  | .shl => m.shl
  | .shr => m.shr
  | .not => m.not
  | .buf => m.buf
  | .dbg => m.dbg

/-- `REG_NIBBLE(r)`. -/
def RegNibble.of (m : RegNibble) : RegOp → Nibble
  | .lda => m.lda
  | .sta => m.sta
  | .ldi => m.ldi
  | .sti => m.sti
  | .lds => m.lds
  | .sts => m.sts
  | .clc => m.clc
  | .sec => m.sec
  | .flc => m.flc
  | .nop => m.nop
  | .pop => m.pop

/-- Each unary operation has "a distinct nibble value" (30_encoding.md R77). -/
def UnaryNibble.wf (m : UnaryNibble) : Bool := decide (UnaryOp.all.map m.of).Nodup

/-- Each register/flag operation has "a distinct nibble" (30_encoding.md R79). -/
def RegNibble.wf (m : RegNibble) : Bool := decide (RegOp.all.map m.of).Nodup

/-- Both nibble maps are injective, as the spec requires of the OPEN parameters (92_eei_decisions.md D3, D4). -/
def NibbleMaps.wf (m : NibbleMaps) : Bool := m.unary.wf && m.reg.wf

/-- The 32 mnemonics (30_encoding.md R86: "the source's three-letter names"). -/
inductive Mnemonic where
  | psh | add | sub | iff | swp | rot | orr | and | xor | xnd | inc | dec | neg | shl | shr | not | buf | dbg
  | ldo | sto | lda | sta | ldi | sti | lds | sts | clc | sec | flc | nop | pop | phn
  deriving DecidableEq, Repr

/-- An instruction as 30_encoding.md R86 writes it: `mnemonic` or `mnemonic operand`. -/
structure Written where
  mnemonic : Mnemonic
  operand : Option Int
  deriving DecidableEq, Repr

/-- The operand forms of 30_encoding.md R86. -/
inductive OperandForm where
  /-- `psh N`, N in 0..127 -/
  | literal
  /-- `phn N`, N in -16..-1, "the forms 0xF0..0xFF are also accepted" -/
  | negative
  /-- a binary operation with S in 0..3; none means 0 -/
  | size
  /-- `ldo O`, `sto O`, O in 0..15 -/
  | offset
  /-- "every other mnemonic takes no operand" -/
  | none
  deriving DecidableEq, Repr

/-- Which operand form each mnemonic takes (30_encoding.md R86). -/
def Mnemonic.form : Mnemonic → OperandForm
  | .psh => .literal
  | .add | .sub | .iff | .swp | .rot | .orr | .and | .xor | .xnd => .size
  | .inc | .dec | .neg | .shl | .shr | .not | .buf | .dbg => .none
  | .ldo | .sto => .offset
  | .lda | .sta | .ldi | .sti | .lds | .sts | .clc | .sec | .flc | .nop | .pop => .none
  | .phn => .negative

/-- "An operand out of range is refused and has no encoding" (30_encoding.md R86): the operands each form admits. -/
def OperandForm.admits : OperandForm → Option Int → Bool
  | .literal, some v => decide (0 ≤ v ∧ v ≤ 127)
  | .literal, Option.none => false
  | .negative, some v => decide ((-16 ≤ v ∧ v ≤ -1) ∨ (0xF0 ≤ v ∧ v ≤ 0xFF))
  | .negative, Option.none => false
  | .size, some v => decide (0 ≤ v ∧ v ≤ 3)
  | .size, Option.none => true
  | .offset, some v => decide (0 ≤ v ∧ v ≤ 15)
  | .offset, Option.none => false
  | .none, some _ => false
  | .none, Option.none => true

/-- A written instruction is well formed when its operand is one its mnemonic admits. -/
def Written.wf (w : Written) : Bool := w.mnemonic.form.admits w.operand

end Sys2Proof
end

