-- ==== Sys2Proof/Decode.lean ====
section
/-! DEFINITION. The decode tree of 30_encoding.md R73 to R82, total on every byte and rejecting by name, the encoder
written from the same tables, the spec's reference nibble values REF, and the written forms of R86. -/

namespace Sys2Proof

/-- Why a byte is Illegal: the two kinds of 30_encoding.md R83. -/
inductive IllegalKind where
  /-- a byte of the unary region whose low nibble no unary operation takes (42_unary_alu.md R139) -/
  | unassignedUnaryNibble (n : Nibble)
  /-- a byte 0xE0 to 0xEF whose low nibble no register/flag operation takes (44_register_flag.md R171) -/
  | unassignedRegNibble (n : Nibble)
  deriving DecidableEq, Repr

/-- "every 8-bit value maps to exactly one outcome" (30_encoding.md R82): an instruction, or Illegal. -/
inductive Decoded where
  | instr (i : Instr)
  | illegal (why : IllegalKind)
  deriving DecidableEq, Repr

/-- REF of 30_encoding.md R77: the spec's reference value of `UNARY_NIBBLE`, for its table and vectors only (log 2). -/
def refUnaryNibble : UnaryNibble :=
  { inc := 0x0, dec := 0x1, neg := 0x2, shl := 0x3, shr := 0x4, not := 0x5, buf := 0x6, dbg := 0x7 }

/-- REF of 30_encoding.md R79: the spec's reference value of `REG_NIBBLE`, for its table and vectors only (log 2). -/
def refRegNibble : RegNibble :=
  { lda := 0x0, sta := 0x1, ldi := 0x2, sti := 0x3, lds := 0x4, sts := 0x5, clc := 0x6, sec := 0x7, flc := 0x8,
    nop := 0x9, pop := 0xA }

/-- The reference encoding that spec/opcode_table.json uses. -/
def refNibbles : NibbleMaps := { unary := refUnaryNibble, reg := refRegNibble }

/-- The instruction a unary operation is. -/
def UnaryOp.instr : UnaryOp → Instr
  | .inc => .inc
  | .dec => .dec
  | .neg => .neg
  | .shl => .shl
  | .shr => .shr
  | .not => .not
  | .buf => .buf
  | .dbg => .dbg

/-- The instruction a register/flag operation is. -/
def RegOp.instr : RegOp → Instr
  | .lda => .lda
  | .sta => .sta
  | .ldi => .ldi
  | .sti => .sti
  | .lds => .lds
  | .sts => .sts
  | .clc => .clc
  | .sec => .sec
  | .flc => .flc
  | .nop => .nop
  | .pop => .pop

/-- `UNARY_OF`: the inverse of `UNARY_NIBBLE`, or none (30_encoding.md R82). A map that is not injective is outside the
spec; the first operation of R77's order is taken then (log 11). -/
def unaryOf (m : UnaryNibble) (n : Nibble) : Option UnaryOp := UnaryOp.all.find? (fun u => m.of u == n)

/-- `REG_OF`: the inverse of `REG_NIBBLE`, or none (30_encoding.md R82; log 11). -/
def regOf (m : RegNibble) (n : Nibble) : Option RegOp := RegOp.all.find? (fun r => m.of r == n)

/-- `BINOP[sel]`: the nine binary operations by sub-selector (30_encoding.md R76); none outside `BIN` (R75). -/
def binaryOf (sel : Nibble) (size : BitVec 2) : Option Instr :=
  if sel = 0x0 then some (.add size)
  else if sel = 0x1 then some (.sub size)
  else if sel = 0x4 then some (.iff size)
  else if sel = 0x5 then some (.swp size)
  else if sel = 0x6 then some (.rot size)
  else if sel = 0x8 then some (.orr size)
  else if sel = 0x9 then some (.and size)
  else if sel = 0xA then some (.xor size)
  else if sel = 0xB then some (.xnd size)
  else none

/-- `op[hi:lo]` for the field of `len` bits that begins at bit `lo` (30_encoding.md R71). -/
def field (op : Byte) (lo len : Nat) : BitVec len := op.extractLsb' lo len

/-- The unary group, re-decoded from the low nibble alone (30_encoding.md R77). -/
def decodeUnary (m : UnaryNibble) (op : Byte) : Decoded :=
  match unaryOf m (field op 0 4) with
  | some u => .instr u.instr
  | none => .illegal (.unassignedUnaryNibble (field op 0 4))

/-- The register/flag group, selected by the low nibble (30_encoding.md R79). -/
def decodeReg (m : RegNibble) (op : Byte) : Decoded :=
  match regOf m (field op 0 4) with
  | some r => .instr r.instr
  | none => .illegal (.unassignedRegNibble (field op 0 4))

/-- `Decode(op)` of 30_encoding.md R82: the nested bit tests of R73, R74, R75, R78, R79, R80. -/
def decode (m : NibbleMaps) (op : Byte) : Decoded :=
  if op[7] = false then .instr (.psh (field op 0 7))
  else if op[6] = false then
    match binaryOf (field op 2 4) (field op 0 2) with
    | some i => .instr i
    | none => decodeUnary m.unary op
  else if op[5] = false then
    if op[4] = false then .instr (.ldo (field op 0 4)) else .instr (.sto (field op 0 4))
  else if op[4] = false then decodeReg m.reg op
  else .instr (.phn (field op 0 4))

/-- The byte of a register/flag operation: `0xE0 | REG_NIBBLE(r)` (30_encoding.md R79). -/
def encodeReg (m : RegNibble) (r : RegOp) : Byte := 0xE#4 ++ m.of r

/-- The byte of a unary operation in the row 0xB0 to 0xBF, which reaches every nibble (30_encoding.md R77). The aliases
in 0x88-0x8F and 0x9C-0x9F decode alike; this one is the encoder's choice (log 12). -/
def encodeUnary (m : UnaryNibble) (u : UnaryOp) : Byte := 0xB#4 ++ m.of u

/-- The opcode byte of an instruction, from the encodings of 30_encoding.md R73 to R81. -/
def encode (m : NibbleMaps) : Instr → Byte
  | .psh imm => 0b0#1 ++ imm
  | .add size => 0b100000#6 ++ size
  | .sub size => 0b100001#6 ++ size
  | .iff size => 0b100100#6 ++ size
  | .swp size => 0b100101#6 ++ size
  | .rot size => 0b100110#6 ++ size
  | .orr size => 0b101000#6 ++ size
  | .and size => 0b101001#6 ++ size
  | .xor size => 0b101010#6 ++ size
  | .xnd size => 0b101011#6 ++ size
  | .inc => encodeUnary m.unary .inc
  | .dec => encodeUnary m.unary .dec
  | .neg => encodeUnary m.unary .neg
  | .shl => encodeUnary m.unary .shl
  | .shr => encodeUnary m.unary .shr
  | .not => encodeUnary m.unary .not
  | .buf => encodeUnary m.unary .buf
  | .dbg => encodeUnary m.unary .dbg
  | .ldo offset => 0b1100#4 ++ offset
  | .sto offset => 0b1101#4 ++ offset
  | .lda => encodeReg m.reg .lda
  | .sta => encodeReg m.reg .sta
  | .ldi => encodeReg m.reg .ldi
  | .sti => encodeReg m.reg .sti
  | .lds => encodeReg m.reg .lds
  | .sts => encodeReg m.reg .sts
  | .clc => encodeReg m.reg .clc
  | .sec => encodeReg m.reg .sec
  | .flc => encodeReg m.reg .flc
  | .nop => encodeReg m.reg .nop
  | .pop => encodeReg m.reg .pop
  | .phn n => 0b1111#4 ++ n

/-- The first byte, at the lowest address, of an instruction whose `nbits` bits are `w`; every bit above is 0. -/
def firstByte (nbits w : Nat) : Byte := BitVec.ofNat 8 (w % 2 ^ nbits)

/-- The instruction the decoder reads from an opcode-table word under REF, the encoding the table is written in. Every
row has one byte (30_encoding.md R70). -/
def decodeTableWord (nbits w : Nat) : Option Instr :=
  match decode refNibbles (firstByte nbits w) with
  | .instr i => some i
  | .illegal _ => none

/-- The value of a written operand, none meaning 0 (30_encoding.md R86: "a bare `add` means `add 0`"). -/
def Written.value (w : Written) : Int := w.operand.getD 0

/-- The instruction a well-formed written form names; an operand out of range is refused (30_encoding.md R86). -/
def Written.assemble (w : Written) : Option Instr :=
  if w.wf then
    some (match w.mnemonic with
      | .psh => .psh (BitVec.ofInt 7 w.value)
      | .add => .add (BitVec.ofInt 2 w.value)
      | .sub => .sub (BitVec.ofInt 2 w.value)
      | .iff => .iff (BitVec.ofInt 2 w.value)
      | .swp => .swp (BitVec.ofInt 2 w.value)
      | .rot => .rot (BitVec.ofInt 2 w.value)
      | .orr => .orr (BitVec.ofInt 2 w.value)
      | .and => .and (BitVec.ofInt 2 w.value)
      | .xor => .xor (BitVec.ofInt 2 w.value)
      | .xnd => .xnd (BitVec.ofInt 2 w.value)
      | .inc => .inc
      | .dec => .dec
      | .neg => .neg
      | .shl => .shl
      | .shr => .shr
      | .not => .not
      | .buf => .buf
      | .dbg => .dbg
      | .ldo => .ldo (BitVec.ofInt 4 w.value)
      | .sto => .sto (BitVec.ofInt 4 w.value)
      | .lda => .lda
      | .sta => .sta
      | .ldi => .ldi
      | .sti => .sti
      | .lds => .lds
      | .sts => .sts
      | .clc => .clc
      | .sec => .sec
      | .flc => .flc
      | .nop => .nop
      | .pop => .pop
      | .phn => .phn (BitVec.ofInt 4 w.value))
  else none

end Sys2Proof
end

