-- ==== Sys2Proof/Machine/Reference.lean ====
section
/-! DEFINITION. The values State.reset gives the OPEN parameters. The spec gives none of them for a device: its own
reference values stand here (log 1, 2, 3), and no statement rests on them without saying so. -/

namespace Sys2Proof.Machine

/-- `CONSOLE_ADDR` in State.reset: DESIGN CHOICE (log 1), the value 95_test_vectors.md assumes unless it says another. -/
def referenceConsoleAddr : Byte := 0x80

/-- `FETCH_VIA_BUS` in State.reset: the spec's default (00_scope.md R6, 20_memory.md R49; log 3). -/
def referenceFetchViaBus : Bool := true

/-- The OPEN parameters of State.reset, with the nibble maps of spec/opcode_table.json (log 2). -/
def referenceParams : Params :=
  { consoleAddr := referenceConsoleAddr, nibbles := refNibbles, fetchViaBus := referenceFetchViaBus }

end Sys2Proof.Machine
end

