-- ==== Sys2Proof/Machine/State.lean ====
section
/-! DEFINITION. The state of the machine as plain data (10_state.md R20, with the OPEN parameters of 00_scope.md R6 and
the host boundary of 70_reset_and_hazards.md R228), the reasons a step can stop, and the state after reset. -/

namespace Sys2Proof.Machine

/-- The two traps (60_exceptions.md R200). -/
inductive TrapKind where
  /-- "undefined bit pattern encountered" (R201) -/
  | illegalOpcode
  /-- "explicit breakpoint-style opcode executed" (R202) -/
  | debugRequest
  deriving DecidableEq, Repr

/-- The run status latch (10_state.md R28, 60_exceptions.md R207). No instruction reads it. -/
inductive Status where
  | running
  | trapped (kind : TrapKind)
  deriving DecidableEq, Repr

/-- Everything the spec gives the machine. -/
structure State where
  /-- instruction pointer: the next opcode address (10_state.md R22) -/
  ip : Byte
  /-- stack pointer: the address of the top of stack (R25) -/
  sp : Byte
  /-- carry flag, the only flag (R27) -/
  cf : Bool
  /-- the store (20_memory.md R40) -/
  mem : Memory
  /-- the pushback list of the console input (10_state.md R29) -/
  inq : List Byte
  /-- the run status latch (R28) -/
  status : Status
  /-- the host's answers that stand ready for the next asks (20_memory.md R44; log 4) -/
  hostIn : List HostAnswer
  /-- every console access so far, oldest first; its emitted bytes are the host output (R45, R55; log 5) -/
  history : List ConsoleEvent
  /-- the OPEN parameters (00_scope.md R6; log 1, 2, 3) -/
  params : Params
  deriving DecidableEq, Repr

/-- Why a step stops. -/
inductive Fault where
  /-- Raised by `step` alone, in every state that is trapped: "while it is not Running, no step is taken" (10_state.md
  R28, 60_exceptions.md R207). Safe: the model says nothing of what comes after a trap (log 9). -/
  | halted (kind : TrapKind)
  deriving DecidableEq, Repr

/-- Why a step gives an instruction no meaning. -/
inductive Refusal where
  /-- Raised only in `exec`'s arm of an instruction that has no meaning yet; every instruction has one, so nothing raises
  it. Safe: it would stop the run. -/
  | notModelled (mnemonic : String)
  deriving DecidableEq, Repr

/-- The machine right after reset (10_state.md R30): `ip`, `sp`, `cf`, `status` as the spec says, the byte of the store
at the console address pushed back. The image loaded before is all zeros, the OPEN parameters are the spec's reference
values, no host answer stands ready and nothing has happened on the console: log 1, 2, 3, 4, 5, 7. -/
def State.reset : State :=
  { ip := 0x00
    sp := 0x00
    cf := false
    mem := []
    inq := [Memory.read [] referenceParams.consoleAddr]
    status := .running
    hostIn := []
    history := []
    params := referenceParams }

end Sys2Proof.Machine
end

