-- ==== Sys2Proof/Machine/Ops.lean ====
section
/-! DEFINITION. The named operations over registers, store, console and stack (20_memory.md), the fetch (R49, R72), image
load and reset (70_reset_and_hazards.md R220, R222), and taking a trap (60_exceptions.md R207). -/

namespace Sys2Proof.Machine

/-! ## Register and field writes -/

/-- `ip <- v` -/
def State.setIp (s : State) (v : Byte) : State := { s with ip := v }

/-- `sp <- v` -/
def State.setSp (s : State) (v : Byte) : State := { s with sp := v }

/-- `cf <- b` -/
def State.setCf (s : State) (b : Bool) : State := { s with cf := b }

/-- the store is replaced -/
def State.setMem (s : State) (m : Memory) : State := { s with mem := m }

/-- the pushback list is replaced -/
def State.setInq (s : State) (q : List Byte) : State := { s with inq := q }

/-- `status <- v` -/
def State.setStatus (s : State) (v : Status) : State := { s with status := v }

/-- the host's ready answers are replaced -/
def State.setHostIn (s : State) (q : List HostAnswer) : State := { s with hostIn := q }

/-- one more console access happened -/
def State.record (s : State) (e : ConsoleEvent) : State := { s with history := s.history ++ [e] }

/-! ## The console (20_memory.md R44, R45) -/

/-- The byte a console read returns for a host answer: 0x00 when input is exhausted (20_memory.md R44). -/
def answerByte : HostAnswer → Byte
  | .exhausted => 0x00
  | .byte b => b

/-- `HostAsk()`: the host's answer, the next ready one, else a free value (20_memory.md R44, D14; log 4). -/
def hostAsk (s : State) : HostAnswer × State :=
  match s.hostIn with
  | answer :: rest => (answer, (s.setHostIn rest).record (.asked answer))
  | [] => (Config.hostInput s.history, s.record (.asked (Config.hostInput s.history)))

/-- `ConsoleRead()`: the head of the pushback list, else one answer of the host (20_memory.md R44). -/
def consoleRead (s : State) : Byte × State :=
  match s.inq with
  | b :: rest => (b, (s.setInq rest).record (.pushedBack b))
  | [] => (answerByte (hostAsk s).1, (hostAsk s).2)

/-- `ConsoleWrite(v)`: the byte is appended to the host output at once (20_memory.md R45). -/
def consoleWrite (v : Byte) (s : State) : State := s.record (.emitted v)

/-- The bytes a list of console accesses emitted, in order. -/
def emittedBytes (es : List ConsoleEvent) : List Byte :=
  es.filterMap (fun e => match e with
    | .emitted b => some b
    | .pushedBack _ => none
    | .asked _ => none)

/-- The host output stream (20_memory.md R45, 92_eei_decisions.md D24). -/
def State.hostOutput (s : State) : List Byte := emittedBytes s.history

/-! ## The bus (20_memory.md R42, R43) -/

/-- `MemRead(a, 1)`. -/
def memRead (a : Byte) (s : State) : Byte × State :=
  if a = s.params.consoleAddr then consoleRead s else (s.mem.read a, s)

/-- `MemWrite(a, 1, v)`. -/
def memWrite (a v : Byte) (s : State) : State :=
  if a = s.params.consoleAddr then consoleWrite v s else s.setMem (s.mem.write a v)

/-! ## Stack primitives (20_memory.md R47, R48) -/

/-- `Push(v)`: decrement `sp`, then write at the new `sp`. -/
def pushByte (v : Byte) (s : State) : State := memWrite (s.sp - 1) v (s.setSp (s.sp - 1))

/-- `Pop()`: read at `sp`, then increment it. -/
def popByte (s : State) : Byte × State :=
  ((memRead s.sp s).1, (memRead s.sp s).2.setSp ((memRead s.sp s).2.sp + 1))

/-! ## Fetch (20_memory.md R49, 30_encoding.md R72) -/

/-- `Fetch(ip)`: through the bus when `FETCH_VIA_BUS`, else straight from the store (20_memory.md R49). -/
def fetchByte (s : State) : Byte × State :=
  if s.params.fetchViaBus then memRead s.ip s else (s.mem.read s.ip, s)

/-- `op = Fetch(ip); ip <- (ip + 1) mod 256` (30_encoding.md R72). -/
def fetch (s : State) : Byte × State :=
  ((fetchByte s).1, (fetchByte s).2.setIp ((fetchByte s).2.ip + 1))

/-- Where the next fetch of `s` reads, `b` is what it will read: on the console's pushback list when the fetch is a
console read, else in the store. -/
def placeOpcode (b : Byte) (s : State) : State :=
  if s.params.fetchViaBus = true ∧ s.ip = s.params.consoleAddr then s.setInq (b :: s.inq)
  else s.setMem (s.mem.write s.ip b)

/-! ## Traps (60_exceptions.md R200, R207) -/

/-- `raise kind()`: trap entry is a halt. The status latch is set and nothing else changes: nothing is saved, there is no
vector (60_exceptions.md R204, R207). No instruction returns from a trap; only `doReset` leaves it (R208). -/
def raiseTrap (kind : TrapKind) (s : State) : State := s.setStatus (.trapped kind)

/-- The trap value of the step that led to a state (60_exceptions.md R200): none while it runs on. -/
def State.trap (s : State) : Option TrapKind :=
  match s.status with
  | .running => none
  | .trapped kind => some kind

/-! ## Image load and reset (70_reset_and_hazards.md R220, R222) -/

/-- The stores `mem[a] <- IMAGE[a]` from address `a` on, in rising order. -/
def loadFrom (a : Nat) : List Byte → Memory → Memory
  | [], m => m
  | b :: rest, m => loadFrom (a + 1) rest (m.write (BitVec.ofNat 8 a) b)

/-- `Load(IMAGE)`: 256 bytes straight into the store, without the interception (70_reset_and_hazards.md R222). -/
def State.loadImage (s : State) (image : Vector Byte 256) : State := s.setMem (loadFrom 0 image.toList s.mem)

/-- `Reset()` (70_reset_and_hazards.md R220): the processor state, and the store's byte at the console address pushed back
ahead of whatever is unread. The store and the host's streams are left alone (R221). -/
def State.doReset (s : State) : State :=
  ((((s.setIp 0x00).setSp 0x00).setCf false).setInq (s.mem.read s.params.consoleAddr :: s.inq)).setStatus .running

/-- A device with parameters `p` that has never run, facing a host whose first answers are `answers`. The spec gives `ip`,
`sp`, `cf` and `status` values only AFTER a reset (10_state.md R30): that they are 0x00, 0x00, false and Running before the
first one is a DESIGN CHOICE (log 18), which `doReset` overwrites. -/
def State.powerOn (p : Params) (answers : List HostAnswer) : State :=
  { ip := 0x00, sp := 0x00, cf := false, mem := [], inq := [], status := .running, hostIn := answers, history := [],
    params := p }

/-- The state a run starts at: after `Load(IMAGE)` and `Reset()` (70_reset_and_hazards.md R228). -/
def State.launch (p : Params) (answers : List HostAnswer) (image : Vector Byte 256) : State :=
  ((State.powerOn p answers).loadImage image).doReset

end Sys2Proof.Machine
end

