-- ==== Sys2Proof/Machine/Flags.lean ====
section
/-! DEFINITION. The carry flag's formulas (10_state.md R27), over the exact intermediate values of the instruction rules. -/

namespace Sys2Proof.Machine

/-- The exact sum `A + B + cf`, 0 to 511 (41_binary_alu.md R111). -/
def exactSum (a b : Byte) (c : Bool) : Nat := a.toNat + b.toNat + c.toNat

/-- `t = (A - B - cf) mod 65536` (41_binary_alu.md R112). -/
def wideDifference (a b : Byte) (c : Bool) : Nat :=
  (((a.toNat : Int) - b.toNat - c.toNat) % 65536).toNat

/-- `t > 255`: the carry of an addition, the borrow of a subtraction (41_binary_alu.md R111, R112). -/
def carryOut (t : Nat) : Bool := decide (t > 255)

/-- `r == 0` (41_binary_alu.md R116, R117, R118; 42_unary_alu.md R136, R137). -/
def isZero (r : Byte) : Bool := r == 0

/-- `x[7]` (42_unary_alu.md R134). -/
def topBit (x : Byte) : Bool := x[7]

/-- `x[0]` (42_unary_alu.md R135). -/
def lowBit (x : Byte) : Bool := x[0]

/-- `if F writes the flag: cf <- c_new` (41_binary_alu.md R110, 42_unary_alu.md R130): none is "unchanged". -/
def writeFlag (c : Option Bool) (s : State) : State :=
  match c with
  | some b => s.setCf b
  | none => s

end Sys2Proof.Machine
end

