-- ==== Sys2Proof/Machine/Operands.lean ====
section
/-! DEFINITION. The operand forms of 30_encoding.md R81: the immediates and the stack-relative addresses. -/

namespace Sys2Proof.Machine

/-- `zext_8(op[6:0])` (30_encoding.md R81, 40_push_immediate.md R100). -/
def pshValue (imm : BitVec 7) : Byte := imm.setWidth 8

/-- `0b1111 : n` (30_encoding.md R80, 90_conflicts.md C1). -/
def phnValue (n : Nibble) : Byte := 0b1111#4 ++ n

/-- `(sp + size) mod 256`, with `sp` taken after the pop (41_binary_alu.md R110). -/
def sizeAddr (sp : Byte) (size : BitVec 2) : Byte := sp + size.setWidth 8

/-- `(sp + offset) mod 256` (43_offset.md R150, R151). -/
def offsetAddr (sp : Byte) (offset : Nibble) : Byte := sp + offset.setWidth 8

end Sys2Proof.Machine
end

