-- ==== Sys2Proof/Machine/Binary.lean ====
section
/-! DEFINITION. The binary ALU group (41_binary_alu.md): the common frame of R110, the nine functions, the nine meanings. -/

namespace Sys2Proof.Machine

/-- A function `F(A, B, cf)` of 41_binary_alu.md R110: the result, and the new flag or none for "unchanged". -/
abbrev BinaryFn := Byte → Byte → Bool → Byte × Option Bool

/-- The frame of 41_binary_alu.md R110 up to the flag: pop `B`, read `A` at `sp + size`, write the result there. It
answers `A` too, which `swp` pushes. -/
def binaryFrame (f : BinaryFn) (size : BitVec 2) (s : State) : Byte × State :=
  let b := popByte s
  let addr := sizeAddr b.2.sp size
  let a := memRead addr b.2
  let r := f a.1 b.1 a.2.cf
  (a.1, writeFlag r.2 (memWrite addr r.1 a.2))

/-- `t = A + B + cf`; `r = t mod 256`; `cf <- t > 255` (R111). -/
def addFn : BinaryFn := fun a b c => (BitVec.ofNat 8 (exactSum a b c), some (carryOut (exactSum a b c)))

/-- `t = (A - B - cf) mod 65536`; `r = t mod 256`; `cf <- t > 255` (R112). -/
def subFn : BinaryFn := fun a b c => (BitVec.ofNat 8 (wideDifference a b c), some (carryOut (wideDifference a b c)))

/-- `r = cf ? B : A`; `cf` unchanged (R113). -/
def iffFn : BinaryFn := fun a b c => (if c then b else a, none)

/-- `r = B`; `cf` unchanged (R114). -/
def swpFn : BinaryFn := fun _ b _ => (b, none)

/-- `r = ((A << k) | (A >> (8 - k))) mod 256` with `k = B mod 8`; `cf <- 0` (R115). -/
def rotFn : BinaryFn := fun a b _ =>
  let k := b.toNat % 8
  (BitVec.ofNat 8 ((a.toNat <<< k) ||| (a.toNat >>> (8 - k))), some false)

/-- `r = A | B`; `cf <- r == 0` (R116). -/
def orrFn : BinaryFn := fun a b _ => (a ||| b, some (isZero (a ||| b)))

/-- `r = A & B`; `cf <- r == 0` (R117). -/
def andFn : BinaryFn := fun a b _ => (a &&& b, some (isZero (a &&& b)))

/-- `r = A ^ B`; `cf <- r == 0` (R118). -/
def xorFn : BinaryFn := fun a b _ => (a ^^^ b, some (isZero (a ^^^ b)))

/-- `r = 0x00`; `cf <- 1` (R119, log 15). -/
def xndFn : BinaryFn := fun _ _ _ => (0x00, some true)

/-- `add size` (R111). -/
def execAdd (size : BitVec 2) (s : State) : Host.Outcome State Fault Refusal := .next (binaryFrame addFn size s).2

/-- `sub size` (R112). -/
def execSub (size : BitVec 2) (s : State) : Host.Outcome State Fault Refusal := .next (binaryFrame subFn size s).2

/-- `iff size` (R113). -/
def execIff (size : BitVec 2) (s : State) : Host.Outcome State Fault Refusal := .next (binaryFrame iffFn size s).2

/-- `swp size` (R114): after the frame, the old `A` is pushed into the slot `B` was popped from. -/
def execSwp (size : BitVec 2) (s : State) : Host.Outcome State Fault Refusal :=
  let r := binaryFrame swpFn size s
  .next (pushByte r.1 r.2)

/-- `rot size` (R115). -/
def execRot (size : BitVec 2) (s : State) : Host.Outcome State Fault Refusal := .next (binaryFrame rotFn size s).2

/-- `orr size` (R116). -/
def execOrr (size : BitVec 2) (s : State) : Host.Outcome State Fault Refusal := .next (binaryFrame orrFn size s).2

/-- `and size` (R117). -/
def execAnd (size : BitVec 2) (s : State) : Host.Outcome State Fault Refusal := .next (binaryFrame andFn size s).2

/-- `xor size` (R118). -/
def execXor (size : BitVec 2) (s : State) : Host.Outcome State Fault Refusal := .next (binaryFrame xorFn size s).2

/-- `xnd size` (R119). -/
def execXnd (size : BitVec 2) (s : State) : Host.Outcome State Fault Refusal := .next (binaryFrame xndFn size s).2

end Sys2Proof.Machine
end

