-- ==== Sys2Proof/Machine/Offset.lean ====
section
/-! DEFINITION. The offset group: ldo and sto (43_offset.md). -/

namespace Sys2Proof.Machine

/-- `ldo offset` (R150): read at `sp + offset` with `sp` before the push, then push. -/
def execLdo (offset : Nibble) (s : State) : Host.Outcome State Fault Refusal :=
  let v := memRead (offsetAddr s.sp offset) s
  .next (pushByte v.1 v.2)

/-- `sto offset` (R151): pop, then write at `sp + offset` with `sp` after the pop. -/
def execSto (offset : Nibble) (s : State) : Host.Outcome State Fault Refusal :=
  let v := popByte s
  .next (memWrite (offsetAddr v.2.sp offset) v.1 v.2)

end Sys2Proof.Machine
end

