-- ==== Sys2Proof/Machine/PushImmediate.lean ====
section
/-! DEFINITION. psh (40_push_immediate.md) and phn (45_push_negative.md). -/

namespace Sys2Proof.Machine

/-- `psh imm7` (40_push_immediate.md R100). -/
def execPsh (imm : BitVec 7) (s : State) : Host.Outcome State Fault Refusal := .next (pushByte (pshValue imm) s)

/-- `phn n` (45_push_negative.md R180). -/
def execPhn (n : Nibble) (s : State) : Host.Outcome State Fault Refusal := .next (pushByte (phnValue n) s)

end Sys2Proof.Machine
end

