-- ==== Sys2Proof/Machine/RegFlag.lean ====
section
/-! DEFINITION. The register/flag group (44_register_flag.md). -/

namespace Sys2Proof.Machine

/-- `lda` (R160): pop the address, push the byte read there. -/
def execLda (s : State) : Host.Outcome State Fault Refusal :=
  let a := popByte s
  let v := memRead a.1 a.2
  .next (pushByte v.1 v.2)

/-- `sta` (R161): pop the address, pop the value, write it there. -/
def execSta (s : State) : Host.Outcome State Fault Refusal :=
  let a := popByte s
  let v := popByte a.2
  .next (memWrite a.1 v.1 v.2)

/-- `ldi` (R162): push `ip`, which the fetch has already incremented. -/
def execLdi (s : State) : Host.Outcome State Fault Refusal := .next (pushByte s.ip s)

/-- `sti` (R163): jump to the popped address. -/
def execSti (s : State) : Host.Outcome State Fault Refusal :=
  let t := popByte s
  .next (t.2.setIp t.1)

/-- `lds` (R164): push `sp` as it stood at the start of the instruction. -/
def execLds (s : State) : Host.Outcome State Fault Refusal := .next (pushByte s.sp s)

/-- `sts` (R165): the popped value overrides the pop's increment. -/
def execSts (s : State) : Host.Outcome State Fault Refusal :=
  let v := popByte s
  .next (v.2.setSp v.1)

/-- `clc` (R166). -/
def execClc (s : State) : Host.Outcome State Fault Refusal := .next (s.setCf false)

/-- `sec` (R167). -/
def execSec (s : State) : Host.Outcome State Fault Refusal := .next (s.setCf true)

/-- `flc` (R168): `cf <- 1 - cf`. -/
def execFlc (s : State) : Host.Outcome State Fault Refusal := .next (s.setCf (!s.cf))

/-- `nop` (R169): only the fetch increment of `ip`, which the step has made. -/
def execNop (s : State) : Host.Outcome State Fault Refusal := .next s

/-- `pop` (R170): `sp <- sp + 1`, with no bus read. -/
def execPop (s : State) : Host.Outcome State Fault Refusal := .next (s.setSp (s.sp + 1))

end Sys2Proof.Machine
end

