-- ==== Sys2Proof/Machine/Unary.lean ====
section
/-! DEFINITION. The unary ALU group (42_unary_alu.md): the common frame of R130, the seven functions, the eight meanings. -/

namespace Sys2Proof.Machine

/-- A function `G(x, cf)` of 42_unary_alu.md R130: the result, and the new flag or none for "unchanged". -/
abbrev UnaryFn := Byte → Bool → Byte × Option Bool

/-- The frame of 42_unary_alu.md R130: pop `x`, push the result, then the flag. -/
def unaryFrame (g : UnaryFn) (s : State) : State :=
  let x := popByte s
  let r := g x.1 x.2.cf
  writeFlag r.2 (pushByte r.1 x.2)

/-- `r = (x + 1) mod 256` (R131). -/
def incFn : UnaryFn := fun x _ => (x + 1, none)

/-- `r = (x - 1) mod 256` (R132). -/
def decFn : UnaryFn := fun x _ => (x - 1, none)

/-- `r = (256 - x) mod 256` (R133). -/
def negFn : UnaryFn := fun x _ => (BitVec.ofNat 8 (256 - x.toNat), none)

/-- `r = ((x << 1) | cf) mod 256`; `cf <- x[7]` (R134). -/
def shlFn : UnaryFn := fun x c => (BitVec.ofNat 8 ((x.toNat <<< 1) ||| c.toNat), some (topBit x))

/-- `r = (x >> 1) | (cf << 7)`; `cf <- x[0]` (R135). -/
def shrFn : UnaryFn := fun x c => (BitVec.ofNat 8 ((x.toNat >>> 1) ||| (c.toNat <<< 7)), some (lowBit x))

/-- `r = ~x`; `cf <- r == 0` (R136). -/
def notFn : UnaryFn := fun x _ => (~~~x, some (isZero (~~~x)))

/-- `r = x`; `cf <- x == 0` (R137). -/
def bufFn : UnaryFn := fun x _ => (x, some (isZero x))

/-- `inc` (R131). -/
def execInc (s : State) : Host.Outcome State Fault Refusal := .next (unaryFrame incFn s)

/-- `dec` (R132). -/
def execDec (s : State) : Host.Outcome State Fault Refusal := .next (unaryFrame decFn s)

/-- `neg` (R133). -/
def execNeg (s : State) : Host.Outcome State Fault Refusal := .next (unaryFrame negFn s)

/-- `shl` (R134). -/
def execShl (s : State) : Host.Outcome State Fault Refusal := .next (unaryFrame shlFn s)

/-- `shr` (R135). -/
def execShr (s : State) : Host.Outcome State Fault Refusal := .next (unaryFrame shrFn s)

/-- `not` (R136). -/
def execNot (s : State) : Host.Outcome State Fault Refusal := .next (unaryFrame notFn s)

/-- `buf` (R137). -/
def execBuf (s : State) : Host.Outcome State Fault Refusal := .next (unaryFrame bufFn s)

/-- `dbg` (R138): takes the trap `DebugRequest`, with no bus access. -/
def execDbg (s : State) : Host.Outcome State Fault Refusal := .next (raiseTrap .debugRequest s)

end Sys2Proof.Machine
end

