-- ==== Sys2Proof/Machine/Dispatch.lean ====
section
/-! DEFINITION. `Execute(insn)` of 30_encoding.md R72: one arm per instruction, in the opcode table's order. -/

namespace Sys2Proof.Machine

/-- `Execute(insn)`, on the state after the fetch (30_encoding.md R72). -/
def exec (i : Instr) (s : State) : Host.Outcome State Fault Refusal :=
  match i with
  | .psh imm => Sys2Proof.Machine.execPsh imm s
  | .add size => Sys2Proof.Machine.execAdd size s
  | .sub size => Sys2Proof.Machine.execSub size s
  | .iff size => Sys2Proof.Machine.execIff size s
  | .swp size => Sys2Proof.Machine.execSwp size s
  | .rot size => Sys2Proof.Machine.execRot size s
  | .orr size => Sys2Proof.Machine.execOrr size s
  | .and size => Sys2Proof.Machine.execAnd size s
  | .xor size => Sys2Proof.Machine.execXor size s
  | .xnd size => Sys2Proof.Machine.execXnd size s
  | .inc => Sys2Proof.Machine.execInc s
  | .dec => Sys2Proof.Machine.execDec s
  | .neg => Sys2Proof.Machine.execNeg s
  | .shl => Sys2Proof.Machine.execShl s
  | .shr => Sys2Proof.Machine.execShr s
  | .not => Sys2Proof.Machine.execNot s
  | .buf => Sys2Proof.Machine.execBuf s
  | .dbg => Sys2Proof.Machine.execDbg s
  | .ldo offset => Sys2Proof.Machine.execLdo offset s
  | .sto offset => Sys2Proof.Machine.execSto offset s
  | .lda => Sys2Proof.Machine.execLda s
  | .sta => Sys2Proof.Machine.execSta s
  | .ldi => Sys2Proof.Machine.execLdi s
  | .sti => Sys2Proof.Machine.execSti s
  | .lds => Sys2Proof.Machine.execLds s
  | .sts => Sys2Proof.Machine.execSts s
  | .clc => Sys2Proof.Machine.execClc s
  | .sec => Sys2Proof.Machine.execSec s
  | .flc => Sys2Proof.Machine.execFlc s
  | .nop => Sys2Proof.Machine.execNop s
  | .pop => Sys2Proof.Machine.execPop s
  | .phn n => Sys2Proof.Machine.execPhn n s

end Sys2Proof.Machine
end

