-- ==== Sys2Proof/Machine/Step.lean ====
section
/-! DEFINITION. One step of the CORE (30_encoding.md R72), and where a test places the instruction it wants run next. -/

namespace Sys2Proof.Machine

/-- `Step()` (30_encoding.md R72): fetch, increment `ip`, decode, execute. An Illegal byte takes the trap
`IllegalOpcode` (60_exceptions.md R201). While the status is not Running no step is taken (10_state.md R28): the one
fault of the model. -/
def step (s : State) : Host.Outcome State Fault Refusal :=
  match s.status with
  | .trapped kind => .fault (.halted kind)
  | .running =>
    match decode (fetch s).2.params.nibbles (fetch s).1 with
    | .instr i => exec i (fetch s).2
    | .illegal _ => .next (raiseTrap .illegalOpcode (fetch s).2)

/-- `s` running, with the opcode byte of an instruction (its `nbits` bits are `w`) where the next fetch reads it: at `ip`
in the store, or at the head of the pushback list when that fetch is a console read (log 10). -/
def State.withFetchWord (s : State) (nbits w : Nat) : State :=
  placeOpcode (firstByte nbits w) (s.setStatus .running)

end Sys2Proof.Machine
end

