-- ==== Sys2Proof/Safety.lean ====
section
/-! DEFINITION. The terms claims are stated in: well-formed states, what a step or an instruction leaves behind, and
numbers held in the store. Nothing here is part of the machine. -/

namespace Sys2Proof.Machine

/-- The invariant of the model: the store is in canonical form and the nibble maps are injective (30_encoding.md R77,
R79). -/
def State.wf (s : State) : Bool := s.mem.wf && s.params.nibbles.wf

/-- A safe step: the machine goes on to a next state (which may be a trapped one), it neither faults nor refuses. -/
def SafeStep (s : State) : Prop := ∃ t, step s = .next t

/-- The bytes a sequence of bus writes `(address, value)` emits on the console (20_memory.md R43, R45). -/
def emissions (p : Params) (writes : List (Byte × Byte)) : List ConsoleEvent :=
  writes.filterMap (fun w => if w.1 = p.consoleAddr then some (.emitted w.2) else none)

/-- The store's byte at `a` after a sequence of bus writes, if it was `old` before: the last write to `a`, none of which
reaches the store at the console address (20_memory.md R43, R46). -/
def storedAfter (p : Params) (writes : List (Byte × Byte)) (a old : Byte) : Byte :=
  writes.foldl (fun b w => if w.1 = a ∧ a ≠ p.consoleAddr then w.2 else b) old

/-- `t` is `u` with these values of `ip`, `sp` and `cf` and these bus writes made, in order, and NOTHING else changed:
every other byte of the store, the console input still unread, the status and the parameters are those of `u`. -/
structure LeavesBehind (u t : State) (ip sp : Byte) (cf : Bool) (writes : List (Byte × Byte)) : Prop where
  ip_eq : t.ip = ip
  sp_eq : t.sp = sp
  cf_eq : t.cf = cf
  status_eq : t.status = u.status
  params_eq : t.params = u.params
  inq_eq : t.inq = u.inq
  hostIn_eq : t.hostIn = u.hostIn
  history_eq : t.history = u.history ++ emissions u.params writes
  mem_eq : ∀ a, t.mem.read a = storedAfter u.params writes a (u.mem.read a)

/-- `i` run on `s` COMPLETES, and its next state is `u` (which is `s` once the instruction's bus reads are made) with
these register values and these bus writes. -/
def Completes (i : Instr) (s u : State) (ip sp : Byte) (cf : Bool) (writes : List (Byte × Byte)) : Prop :=
  ∃ t, exec i s = .next t ∧ LeavesBehind u t ip sp cf writes

/-- What 41_binary_alu.md R110 says of an operation with result `r` and new flag `c`, given `A`, `B` and `cf`: `B` is read
at `sp`, then `A` at `sp + 1 + size`, `r` is written there, and `sp` is one higher. -/
def BinaryCompletes (i : BitVec 2 → Instr) (r : Byte → Byte → Bool → Byte) (c : Byte → Byte → Bool → Bool) : Prop :=
  ∀ (size : BitVec 2) (s : State),
    let b := memRead s.sp s
    let addr := sizeAddr (s.sp + 1) size
    let a := memRead addr b.2
    Completes (i size) s a.2 s.ip (s.sp + 1) (c a.1 b.1 s.cf) [(addr, r a.1 b.1 s.cf)]

/-- What 42_unary_alu.md R130 says of an operation with result `r` and new flag `c`, given `x` and `cf`: `x` is read at
`sp` and `r` written there. -/
def UnaryCompletes (i : Instr) (r : Byte → Bool → Byte) (c : Byte → Bool → Bool) : Prop :=
  ∀ s : State,
    let x := memRead s.sp s
    Completes i s x.2 s.ip s.sp (c x.1 s.cf) [(s.sp, r x.1 s.cf)]

/-- `i` run `n` times over. -/
def execTimes (i : Instr) : Nat → State → Option State
  | 0, s => some s
  | n + 1, s =>
    match exec i s with
    | .next t => execTimes i n t
    | .fault _ => none
    | .refused _ => none

/-- The `n`-byte number in the store from `base` on, low byte at the lower address (41_binary_alu.md R120). -/
def numberAt (m : Memory) (base : Byte) : Nat → Nat
  | 0 => 0
  | n + 1 => (m.read base).toNat + 256 * numberAt m (base + 1) n

/-- Two states that differ at most in the store's byte under the console address (20_memory.md R46). -/
structure SameButConsoleCell (s t : State) : Prop where
  ip_eq : t.ip = s.ip
  sp_eq : t.sp = s.sp
  cf_eq : t.cf = s.cf
  inq_eq : t.inq = s.inq
  status_eq : t.status = s.status
  hostIn_eq : t.hostIn = s.hostIn
  history_eq : t.history = s.history
  params_eq : t.params = s.params
  mem_eq : ∀ a, a ≠ s.params.consoleAddr → t.mem.read a = s.mem.read a

/-- Two steps end alike: both in related next states, or both for the same reason. -/
def EndAlike (related : State → State → Prop) : Host.Outcome State Fault Refusal → Host.Outcome State Fault Refusal → Prop
  | .next s, .next t => related s t
  | .fault a, .fault b => a = b
  | .refused a, .refused b => a = b
  | .next _, .fault _ => False
  | .next _, .refused _ => False
  | .fault _, .next _ => False
  | .fault _, .refused _ => False
  | .refused _, .next _ => False
  | .refused _, .fault _ => False

/-- The instructions that read the carry flag (10_state.md R27). -/
def readsCarry : Instr → Bool
  | .add _ | .sub _ | .iff _ | .shl | .shr | .flc => true
  | .psh _ | .swp _ | .rot _ | .orr _ | .and _ | .xor _ | .xnd _ | .inc | .dec | .neg | .not | .buf | .dbg
  | .ldo _ | .sto _ | .lda | .sta | .ldi | .sti | .lds | .sts | .clc | .sec | .nop | .pop | .phn _ => false

/-- The bytes of the unary region (30_encoding.md R77): 0x88-0x8F, 0x9C-0x9F and 0xB0-0xBF. -/
def unaryRegion (op : Byte) : Bool :=
  decide ((0x88 ≤ op.toNat ∧ op.toNat ≤ 0x8F) ∨ (0x9C ≤ op.toNat ∧ op.toNat ≤ 0x9F) ∨ (0xB0 ≤ op.toNat ∧ op.toNat ≤ 0xBF))

/-- The instruction belongs to the unary group. -/
def isUnary (i : Instr) : Bool := UnaryOp.all.any (fun u => u.instr == i)

end Sys2Proof.Machine
end

