-- ==== Sys2Proof/Certificates/Slice0/Obligations.lean ====
section
/-! DEFINITION. The statements for the provers. Rules are those of spec/; "log n" is notes/assumptions/n.md. Every
statement about a state holds for every value of the OPEN parameters, of the host's answers and of the free value. -/

open Sys2Proof Sys2Proof.Machine

/-! ## Reset and launch -/

/-- 70_reset_and_hazards.md section 1 and section 5, vector V-RST-1: `Load(IMAGE)` then `Reset()`, for every image and
every parameter. That nothing is in `inq` or on the console before the first reset is the model's reading (log 5, 14). -/
def Obligations.LaunchLoadsImageAndSeedsConsole : Prop :=
  ∀ (p : Params) (answers : List HostAnswer) (image : Vector Byte 256),
    let s := State.launch p answers image
    s.ip = 0x00 ∧ s.sp = 0x00 ∧ s.cf = false ∧ s.status = .running ∧
      s.inq = [image[p.consoleAddr.toNat]] ∧ (∀ a : Byte, s.mem.read a = image[a.toNat]) ∧ s.mem.wf = true ∧
      s.hostIn = answers ∧ s.history = [] ∧ s.params = p

/-- 70_reset_and_hazards.md section 1 (`Reset()`), in any state, trapped ones too: it sets `ip`, `sp`, `cf`, `status`,
pushes the store's byte at the console address back ahead of what is unread (the spec's D16, D20), and touches nothing
else (D25). -/
def Obligations.ResetRestartsAnyState : Prop :=
  ∀ s : State, s.doReset =
    { s with
      ip := 0x00, sp := 0x00, cf := false, status := .running
      inq := s.mem.read s.params.consoleAddr :: s.inq }

/-- 10_state.md section 8 for `State.reset`: `ip`, `sp`, `cf` and `status` are the spec's; that its image is all zeros,
its parameters REF, 0x80 and true, and that no host answer stands ready, is the model's choice (log 1, 2, 3, 4, 5, 7). -/
def Obligations.ResetStateIsAWellFormedLaunch : Prop :=
  State.reset.ip = 0x00 ∧ State.reset.sp = 0x00 ∧ State.reset.cf = false ∧ State.reset.status = .running ∧
    State.reset.wf = true ∧ State.reset = State.launch referenceParams [] (Vector.replicate 256 0x00)

/-! ## Invariants every step keeps -/

/-- The store stays in canonical form and the nibble maps stay injective, whatever instruction runs. -/
def Obligations.StepKeepsWellFormed : Prop :=
  ∀ s t : State, s.wf = true → step s = .next t → t.wf = true

/-- 20_memory.md section 3 (the store cell under the console, D19): no step changes the store's byte at the console
address, nor any OPEN parameter. -/
def Obligations.StepKeepsConsoleCellAndParameters : Prop :=
  ∀ s t : State, step s = .next t →
    t.params = s.params ∧ t.mem.read s.params.consoleAddr = s.mem.read s.params.consoleAddr

/-- 20_memory.md section 9 (order of console traffic): a step appends at most four console accesses to the history; what
they took from the pushback list is its head, in order, and what they took from the host's ready answers is theirs, in
order; the host is asked only once the pushback list is empty. -/
def Obligations.StepMovesConsoleStreamsInOrder : Prop :=
  ∀ s t : State, step s = .next t → ∃ es : List ConsoleEvent,
    let taken := es.filterMap (fun e => match e with
      | .pushedBack b => some b
      | .asked _ => none
      | .emitted _ => none)
    let answers := es.filterMap (fun e => match e with
      | .pushedBack _ => none
      | .asked a => some a
      | .emitted _ => none)
    t.history = s.history ++ es ∧ es.length ≤ 4 ∧ t.hostOutput = s.hostOutput ++ emittedBytes es ∧
      s.inq = taken ++ t.inq ∧ t.hostIn = s.hostIn.drop answers.length ∧
      answers.take s.hostIn.length = s.hostIn.take answers.length ∧ (answers ≠ [] → t.inq = [])

/-! ## The step -/

/-- 30_encoding.md section 1 (the instruction cycle) and 20_memory.md section 5 (fetch): when the byte fetched decodes to
`i`, the step is `exec` of `i` on the state after the fetch, which is the state with `ip` one higher and, if the fetch
was a console read (D6), that read made. -/
def Obligations.StepRunsDecodedInstruction : Prop :=
  ∀ (s : State) (i : Instr), s.status = .running → decode s.params.nibbles (fetch s).1 = .instr i →
    step s = exec i (fetch s).2 ∧
      (s.params.fetchViaBus = true → s.ip = s.params.consoleAddr →
        fetch s = ((consoleRead s).1, { (consoleRead s).2 with ip := s.ip + 1 })) ∧
      (s.params.fetchViaBus = false ∨ s.ip ≠ s.params.consoleAddr →
        fetch s = (s.mem.read s.ip, { s with ip := s.ip + 1 }))

/-- 10_state.md section 3: a fetch at 0xFF leaves `ip` = 0x00 and every value `sti` writes is a legal target (R24's own
words). That EVERY running step answers a next state rests on more than R24: a trap is a next state with the latch set
(the spec's decision D13; log 13), and a console read completes within its step (D15; log 6, DEDUCED and unsafe for a
claim of progress, since a host that never answers hangs the device). -/
def Obligations.RunningStepAlwaysAnswersNext : Prop :=
  (∀ s : State, s.status = .running → SafeStep s) ∧
  (∀ s : State, s.ip = 0xFF → (fetch s).2.ip = 0x00) ∧
  (∀ s : State, ∃ t, exec .sti s = .next t ∧ t.ip = (memRead s.sp s).1 ∧ (t.status = .running → SafeStep t))

/-- 60_exceptions.md section 3 (the spec's own decision D13; log 9): while the status is trapped no step is taken, and
only reset makes the machine run again. -/
def Obligations.TrappedMachineTakesNoStep : Prop :=
  ∀ (s : State) (k : TrapKind), s.status = .trapped k →
    step s = .fault (.halted k) ∧ s.doReset.status = .running

/-- 42_unary_alu.md R139, 44_register_flag.md R171, 60_exceptions.md section 1: a byte of the unary region, or of 0xE0 to
0xEF, whose low nibble no operation takes raises IllegalOpcode, and the step has made the fetch and nothing else. The
latch that records the trap is the spec's decision D13. -/
def Obligations.IllegalByteTrapsAfterFetch : Prop :=
  ∀ s : State, s.status = .running →
    ((unaryRegion (fetch s).1 = true ∧ ∀ u, s.params.nibbles.unary.of u ≠ (fetch s).1.setWidth 4) ∨
      ((fetch s).1.toNat / 16 = 14 ∧ ∀ r, s.params.nibbles.reg.of r ≠ (fetch s).1.setWidth 4)) →
    ∃ t, step s = .next t ∧ t.status = .trapped .illegalOpcode ∧ t.ip = s.ip + 1 ∧ t.sp = s.sp ∧ t.cf = s.cf ∧
      t.params = s.params ∧ (∀ a, t.mem.read a = s.mem.read a) ∧ t.inq = (fetchByte s).2.inq ∧
      t.hostIn = (fetchByte s).2.hostIn ∧ t.history = (fetchByte s).2.history

/-- 42_unary_alu.md section 5 and 60_exceptions.md section 1: `dbg` raises DebugRequest and changes nothing but the status
latch (the spec's D9, D13). That `encode` writes the byte 0xB over the nibble, of all the aliases of 30_encoding.md
section 2, is the model's choice (log 12). -/
def Obligations.DbgTakesDebugRequest : Prop :=
  (∀ s : State, exec .dbg s = .next { s with status := .trapped .debugRequest }) ∧
  (∀ m : NibbleMaps, encode m .dbg = 0xB#4 ++ m.unary.dbg) ∧ encode refNibbles .dbg = 0xB7

/-- 60_exceptions.md section 1 and section 2: of the steps taken, those on an Illegal byte and no others raise
IllegalOpcode, those on `dbg` and no others raise DebugRequest, and every other leaves the machine running. -/
def Obligations.TrapsComeOnlyFromIllegalBytesAndDbg : Prop :=
  ∀ s t : State, step s = .next t →
    (t.trap = some .illegalOpcode ↔ ∃ why, decode s.params.nibbles (fetch s).1 = .illegal why) ∧
    (t.trap = some .debugRequest ↔ decode s.params.nibbles (fetch s).1 = .instr .dbg) ∧
    (t.trap = none ↔ ∃ i, i ≠ .dbg ∧ decode s.params.nibbles (fetch s).1 = .instr i)

/-- 60_exceptions.md R205, with the status latch of the spec's D13: a trapping step leaves the state as it was after the
fetch increment. -/
def Obligations.TrapsArePrecise : Prop :=
  ∀ (s t : State) (k : TrapKind), step s = .next t → t.status = .trapped k →
    t = { (fetch s).2 with status := .trapped k }

/-! ## The flag and the stack pointer, over all instructions -/

/-- 10_state.md section 5: the flag's reset value, the value every writer writes, that every other instruction and a trap
leave it unchanged, and that an instruction outside R27's list of readers does the same whatever the flag is. The row of
`xnd` is as 41_binary_alu.md writes it (the spec's D26; log 15, DEDUCED). The clause on readers compares two machines
that FACE THE SAME HOST: with no answer ready both draw the same free value, the model's form of the host (log 4). -/
def Obligations.CarryFlagTable : Prop :=
  State.reset.cf = false ∧ (∀ s : State, s.doReset.cf = false) ∧
  (∀ (i : Instr) (s t : State), exec i s = .next t →
    let b := memRead s.sp s
    let a := fun size : BitVec 2 => (memRead (sizeAddr (s.sp + 1) size) b.2).1
    t.cf = match i with
      | .add size => decide (255 < (a size).toNat + b.1.toNat + s.cf.toNat)
      | .sub size => decide ((a size).toNat < b.1.toNat + s.cf.toNat)
      | .rot _ => false
      | .orr size => decide (a size ||| b.1 = 0)
      | .and size => decide (a size &&& b.1 = 0)
      | .xor size => decide (a size = b.1)
      | .xnd _ => true
      | .shl => b.1.msb
      | .shr => b.1[0]
      | .not => decide (b.1 = 0xFF)
      | .buf => decide (b.1 = 0x00)
      | .clc => false
      | .sec => true
      | .flc => !s.cf
      | .psh _ | .phn _ | .iff _ | .swp _ | .inc | .dec | .neg | .dbg | .ldo _ | .sto _ | .lda | .sta | .ldi | .sti
      | .lds | .sts | .nop | .pop => s.cf) ∧
  (∀ (i : Instr) (s : State) (b : Bool), readsCarry i = false →
    ∃ t u, exec i s = .next t ∧ exec i (s.setCf b) = .next u ∧ u.setCf t.cf = t) ∧
  (∀ s t : State, step s = .next t → t.trap ≠ none → t.cf = s.cf)

/-- 10_state.md section 4: where every instruction leaves `sp`, modulo 256. -/
def Obligations.StackPointerTable : Prop :=
  ∀ (i : Instr) (s t : State), exec i s = .next t →
    t.sp = match i with
      | .psh _ | .phn _ | .ldo _ | .ldi | .lds => s.sp - 1
      | .add _ | .sub _ | .iff _ | .rot _ | .orr _ | .and _ | .xor _ | .xnd _ | .sto _ | .sti | .pop => s.sp + 1
      | .sta => s.sp + 2
      | .sts => (memRead s.sp s).1
      | .swp _ | .inc | .dec | .neg | .shl | .shr | .not | .buf | .dbg | .lda | .clc | .sec | .flc | .nop => s.sp

/-! ## The bus, the console and the stack -/

/-- 20_memory.md R42: a bus read at the console address is a console read and does not look at the store (two machines that
face the same host, log 4, and differ in the store alone read the same); any other answers the store's byte and has no
side effect. -/
def Obligations.BusReadInterceptsConsole : Prop :=
  ∀ (a : Byte) (s : State),
    (a = s.params.consoleAddr → memRead a s = consoleRead s ∧ ∀ m, (memRead a (s.setMem m)).1 = (memRead a s).1) ∧
    (a ≠ s.params.consoleAddr → memRead a s = (s.mem.read a, s))

/-- 20_memory.md section 2 and section 3 (D24 for the output): a bus write at the console address appends one byte to the
host output and leaves the store alone; any other changes that one byte of the store and nothing else. -/
def Obligations.BusWriteInterceptsConsole : Prop :=
  ∀ (a v : Byte) (s : State),
    (a = s.params.consoleAddr →
      memWrite a v s = { s with history := s.history ++ [.emitted v] } ∧
        (memWrite a v s).hostOutput = s.hostOutput ++ [v]) ∧
    (a ≠ s.params.consoleAddr →
      memWrite a v s = { s with mem := (memWrite a v s).mem } ∧
        ∀ b, (memWrite a v s).mem.read b = if b = a then v else s.mem.read b)

/-- 20_memory.md section 3 (D14, D15; log 4): a console read takes the head of the pushback list; if there is none it asks
the host once, and an exhausted host reads as 0x00. Past the answers that stand ready the host's answer is the free value. -/
def Obligations.ConsoleReadTakesPushbackThenHost : Prop :=
  (∀ (s : State) (b : Byte) (rest : List Byte), s.inq = b :: rest →
    consoleRead s = (b, { s with inq := rest, history := s.history ++ [.pushedBack b] })) ∧
  (∀ (s : State) (answer : HostAnswer) (rest : List HostAnswer), s.inq = [] → s.hostIn = answer :: rest →
    consoleRead s = (answerByte answer, { s with hostIn := rest, history := s.history ++ [.asked answer] })) ∧
  (∀ s : State, s.inq = [] → s.hostIn = [] →
    consoleRead s = (answerByte (Config.hostInput s.history),
      { s with history := s.history ++ [.asked (Config.hostInput s.history)] })) ∧
  answerByte .exhausted = 0x00 ∧ ∀ b, answerByte (.byte b) = b

/-- 20_memory.md R47, R48: push decrements `sp`, then writes through the bus at the new `sp`; pop reads through the bus
at `sp`, then increments it; both wrap; at the console address they are a console write and a console read, and the
instruction `pop` makes no read. -/
def Obligations.PushAndPopGoThroughTheBus : Prop :=
  ∀ (v : Byte) (s : State),
    pushByte v s = memWrite (s.sp - 1) v { s with sp := s.sp - 1 } ∧
    popByte s = ((memRead s.sp s).1, { (memRead s.sp s).2 with sp := s.sp + 1 }) ∧
    (s.sp = 0x00 → (pushByte v s).sp = 0xFF) ∧ (s.sp = 0xFF → (popByte s).2.sp = 0x00) ∧
    (s.sp = s.params.consoleAddr → popByte s = ((consoleRead s).1, { (consoleRead s).2 with sp := s.sp + 1 })) ∧
    (s.sp - 1 = s.params.consoleAddr →
      pushByte v s = { s with sp := s.sp - 1, history := s.history ++ [.emitted v] }) ∧
    exec .pop s = .next { s with sp := s.sp + 1 }

/-- 20_memory.md section 9 (fetch is coherent with stores): the byte a bus write put at an address other than the
console's is the byte the next fetch there reads, and a write elsewhere does not change what a fetch reads (for a fetch
from the console: of two machines that face the same host, log 4). -/
def Obligations.FetchSeesTheLatestStore : Prop :=
  ∀ (a v : Byte) (s : State), a ≠ s.params.consoleAddr →
    (fetch ((memWrite a v s).setIp a)).1 = v ∧
    ∀ b, b ≠ a → (fetch ((memWrite a v s).setIp b)).1 = (fetch (s.setIp b)).1

/-- 20_memory.md section 3 (the cell under the console, the spec's D19, D20): a step cannot tell two machines apart that
differ only in the store's byte under the console address and FACE THE SAME HOST (with no answer ready both draw the same
free value, the model's form of the host; log 4). The exception in the hypothesis, a fetch at the console address with
`FETCH_VIA_BUS` false, is the model's reading where R46 and R49 differ (log 16, DEDUCED; D6). -/
def Obligations.ConsoleCellIsHidden : Prop :=
  ∀ s t : State, SameButConsoleCell s t → s.params.fetchViaBus = true ∨ s.ip ≠ s.params.consoleAddr →
    EndAlike SameButConsoleCell (step s) (step t)

/-! ## Encoding -/

/-- 30_encoding.md sections 2 to 4: under any injective nibble maps, decoding an instruction's encoding gives it back,
with every operand at every value. (The spec's pairings D1, D2 stand in both.) -/
def Obligations.DecodeOfEncode : Prop :=
  ∀ (m : NibbleMaps) (i : Instr), m.wf = true → decode m (encode m i) = .instr i

/-- 30_encoding.md section 2: a byte that decodes to an instruction is that instruction's encoding, but for the aliases of
the unary group, which share its low nibble (the encoder's choice among them is the model's, log 12). -/
def Obligations.EncodeOfDecodeUpToUnaryAlias : Prop :=
  ∀ (m : NibbleMaps) (op : Byte) (i : Instr), decode m op = .instr i →
    encode m i = op ∨ (unaryRegion op = true ∧ isUnary i = true ∧ encode m i = 0xB#4 ++ op.setWidth 4)

/-- 30_encoding.md R73 and R80: the half with bit 7 clear is `psh` with its 7-bit literal and no other byte is; the row
0xF0 to 0xFF is `phn`, whose value is the opcode itself, its low five bits sign-extended, in -16 to -1. -/
def Obligations.DecodePshHalfAndPhnRow : Prop :=
  ∀ (m : NibbleMaps) (op : Byte),
    (op[7] = false → decode m op = .instr (.psh (op.setWidth 7))) ∧
    (op[7] = true → ∀ imm, decode m op ≠ .instr (.psh imm)) ∧
    (op.toNat / 16 = 15 →
      decode m op = .instr (.phn (op.setWidth 4)) ∧ phnValue (op.setWidth 4) = 0xF0 ||| (op.setWidth 4).setWidth 8 ∧
        phnValue (op.setWidth 4) = op ∧ op = (op.setWidth 5).signExtend 8 ∧ -16 ≤ op.toInt ∧ op.toInt ≤ -1)

/-- 30_encoding.md section 2 (aliases): under any injective maps every byte of the unary region whose low nibble an
operation takes decodes as that operation. -/
def Obligations.UnaryAliasesDecodeAlike : Prop :=
  ∀ (m : NibbleMaps) (u : UnaryOp) (op : Byte), m.wf = true → unaryRegion op = true →
    op.setWidth 4 = m.unary.of u → decode m op = .instr u.instr

/-- 30_encoding.md section 2 (the register/flag group): under any injective maps the byte 0xE over a nibble decodes as the
operation that has the nibble, and as Illegal when none has. -/
def Obligations.RegNibbleSelectsTheOperation : Prop :=
  ∀ (m : NibbleMaps) (n : Nibble), m.wf = true →
    (∀ i, decode m (0xE#4 ++ n) = .instr i ↔ ∃ r, m.reg.of r = n ∧ i = r.instr) ∧
    ((∃ why, decode m (0xE#4 ++ n) = .illegal why) ↔ ∀ r, m.reg.of r ≠ n)

/-- Words written out from the encodings of 30_encoding.md, under REF, decode to the instruction each stands for. -/
def Obligations.ReferenceWordsDecode : Prop :=
  decodeTableWord 8 0b00000101 = some (.psh 5) ∧ decodeTableWord 8 0b10000001 = some (.add 1) ∧
    decodeTableWord 8 0b10010110 = some (.swp 2) ∧ decodeTableWord 8 0b10101111 = some (.xnd 3) ∧
    decodeTableWord 8 0b10110011 = some .shl ∧ decodeTableWord 8 0b11001010 = some (.ldo 10) ∧
    decodeTableWord 8 0b11010001 = some (.sto 1) ∧ decodeTableWord 8 0b11100011 = some .sti ∧
    decodeTableWord 8 0b11110011 = some (.phn 3)

/-- 30_encoding.md section 4: under REF the Illegal bytes are 0x88-0x8F, 0x9C-0x9F, 0xB8-0xBF and 0xEB-0xEF, 25 of them. -/
def Obligations.ReferenceIllegalBytes : Prop :=
  (∀ op : Byte, (∃ why, decode refNibbles op = .illegal why) ↔
    (0x88 ≤ op.toNat ∧ op.toNat ≤ 0x8F) ∨ (0x9C ≤ op.toNat ∧ op.toNat ≤ 0x9F) ∨ (0xB8 ≤ op.toNat ∧ op.toNat ≤ 0xBF) ∨
      (0xEB ≤ op.toNat ∧ op.toNat ≤ 0xEF)) ∧
  ((List.range 256).filter (fun w => decodeTableWord 8 w == none)).length = 25

/-- 30_encoding.md section 6 (the spec's own written forms, D18): every one of the 32 mnemonics, with every operand and
with none, assembles to the byte the section gives or is refused. The byte is the same under any nibble maps but for the
19 mnemonics that take no operand, whose byte is REF's (log 2; the unary row 0xB0 is REF's own table). That `psh`, `phn`,
`ldo` and `sto` are refused without an operand is read from their forms (log 19, DEDUCED). The first clause says that
`Written.wf` is the check `assemble` makes. -/
def Obligations.WrittenFormsAssemble : Prop :=
  (∀ w : Written, w.wf = true ↔ ∃ i, w.assemble = some i) ∧
  ∀ (m : NibbleMaps) (n : Int),
    (0 ≤ n → n ≤ 127 → ∃ i, Written.assemble ⟨.psh, some n⟩ = some i ∧ ((encode m i).toNat : Int) = n) ∧
    (n < 0 ∨ 127 < n → Written.assemble ⟨.psh, some n⟩ = none) ∧
    (-16 ≤ n → n ≤ -1 → ∃ i, Written.assemble ⟨.phn, some n⟩ = some i ∧
      ((encode m i).toNat : Int) = (0xF0 ||| (n + 16).toNat : Nat)) ∧
    (0xF0 ≤ n → n ≤ 0xFF → ∃ i, Written.assemble ⟨.phn, some n⟩ = some i ∧ ((encode m i).toNat : Int) = n) ∧
    (n < -16 ∨ (-1 < n ∧ n < 0xF0) ∨ 0xFF < n → Written.assemble ⟨.phn, some n⟩ = none) ∧
    (∀ p ∈ [(Mnemonic.add, 0x0), (.sub, 0x1), (.iff, 0x4), (.swp, 0x5), (.rot, 0x6), (.orr, 0x8), (.and, 0x9),
        (.xor, 0xA), (.xnd, 0xB)],
      (0 ≤ n → n ≤ 3 → ∃ i, Written.assemble ⟨p.1, some n⟩ = some i ∧
        (encode m i).toNat = 0x80 ||| (p.2 <<< 2) ||| n.toNat) ∧
      (n < 0 ∨ 3 < n → Written.assemble ⟨p.1, some n⟩ = none) ∧
      Written.assemble ⟨p.1, none⟩ = Written.assemble ⟨p.1, some 0⟩) ∧
    (∀ p ∈ [(Mnemonic.ldo, 0xC0), (.sto, 0xD0)],
      (0 ≤ n → n ≤ 15 → ∃ i, Written.assemble ⟨p.1, some n⟩ = some i ∧ (encode m i).toNat = p.2 ||| n.toNat) ∧
      (n < 0 ∨ 15 < n → Written.assemble ⟨p.1, some n⟩ = none)) ∧
    (∀ p ∈ [(Mnemonic.inc, 0xB0), (.dec, 0xB1), (.neg, 0xB2), (.shl, 0xB3), (.shr, 0xB4), (.not, 0xB5), (.buf, 0xB6),
        (.dbg, 0xB7), (.lda, 0xE0), (.sta, 0xE1), (.ldi, 0xE2), (.sti, 0xE3), (.lds, 0xE4), (.sts, 0xE5), (.clc, 0xE6),
        (.sec, 0xE7), (.flc, 0xE8), (.nop, 0xE9), (.pop, 0xEA)],
      (∃ i, Written.assemble ⟨p.1, none⟩ = some i ∧ (encode refNibbles i).toNat = p.2) ∧
      Written.assemble ⟨p.1, some n⟩ = none) ∧
    ∀ q ∈ [Mnemonic.psh, .phn, .ldo, .sto], Written.assemble ⟨q, none⟩ = none

/-! ## Push-immediate and push-negative -/

/-- 40_push_immediate.md R100. -/
def Obligations.PshPushesItsLiteral : Prop :=
  ∀ (imm : BitVec 7) (m : NibbleMaps) (s : State),
    encode m (.psh imm) = 0b0#1 ++ imm ∧ encode m (.psh imm) = imm.setWidth 8 ∧ (imm.setWidth 8).toNat < 0x80 ∧
    Completes (.psh imm) s s s.ip (s.sp - 1) s.cf [(s.sp - 1, imm.setWidth 8)]

/-- 45_push_negative.md R180 (90_conflicts.md C1). -/
def Obligations.PhnPushesANegativeLiteral : Prop :=
  (∀ (n : Nibble) (m : NibbleMaps) (s : State),
    let v : Byte := 0xF0 ||| n.setWidth 8
    encode m (.phn n) = 0b1111#4 ++ n ∧ encode m (.phn n) = v ∧ v.toInt = -16 + n.toNat ∧
    Completes (.phn n) s s s.ip (s.sp - 1) s.cf [(s.sp - 1, v)]) ∧
  ∀ v : Byte, (v.toNat < 0x80 ∨ 0xF0 ≤ v.toNat) ↔
    (∃ imm : BitVec 7, imm.setWidth 8 = v) ∨ ∃ n : Nibble, (0xF0 ||| n.setWidth 8 : Byte) = v

/-! ## The binary ALU group (41_binary_alu.md; the pairing of its sub-selectors is the spec's D1, that every operation
makes all three accesses its D7, D8) -/

/-- 41_binary_alu.md R111. -/
def Obligations.AddStoresTheSumAndTheCarry : Prop :=
  (∀ (m : NibbleMaps) (size : BitVec 2), encode m (.add size) = 0b100000#6 ++ size) ∧
  BinaryCompletes .add (fun a b c => a + b + (if c then 1 else 0))
    (fun a b c => decide (255 < a.toNat + b.toNat + c.toNat))

/-- 41_binary_alu.md R112. -/
def Obligations.SubStoresTheDifferenceAndTheBorrow : Prop :=
  (∀ (m : NibbleMaps) (size : BitVec 2), encode m (.sub size) = 0b100001#6 ++ size) ∧
  BinaryCompletes .sub (fun a b c => a - b - (if c then 1 else 0))
    (fun a b c => decide (255 < ((a.toNat : Int) - b.toNat - c.toNat) % 65536)) ∧
  ∀ (a b : Byte) (c : Bool), 255 < ((a.toNat : Int) - b.toNat - c.toNat) % 65536 ↔ a.toNat < b.toNat + c.toNat

/-- 41_binary_alu.md R113. -/
def Obligations.IffStoresTheOperandTheCarrySelects : Prop :=
  (∀ (m : NibbleMaps) (size : BitVec 2), encode m (.iff size) = 0b100100#6 ++ size) ∧
  BinaryCompletes .iff (fun a b c => if c then b else a) (fun _ _ c => c)

/-- 41_binary_alu.md R114: `B` is written at `addr`, then the old `A` at the slot `B` came from. -/
def Obligations.SwpExchangesTwoSlots : Prop :=
  (∀ (m : NibbleMaps) (size : BitVec 2), encode m (.swp size) = 0b100101#6 ++ size) ∧
  ∀ (size : BitVec 2) (s : State),
    let b := memRead s.sp s
    let addr := sizeAddr (s.sp + 1) size
    let a := memRead addr b.2
    Completes (.swp size) s a.2 s.ip s.sp s.cf [(addr, b.1), (s.sp, a.1)]

/-- 41_binary_alu.md R115. -/
def Obligations.RotRotatesLeftAndClearsTheCarry : Prop :=
  (∀ (m : NibbleMaps) (size : BitVec 2), encode m (.rot size) = 0b100110#6 ++ size) ∧
  BinaryCompletes .rot (fun a b _ => a.rotateLeft (b.toNat % 8)) (fun _ _ _ => false)

/-- 41_binary_alu.md R116, R117, R118. -/
def Obligations.OrrAndXorStoreTheBitsAndTheZeroTest : Prop :=
  (∀ (m : NibbleMaps) (size : BitVec 2), encode m (.orr size) = 0b101000#6 ++ size ∧
    encode m (.and size) = 0b101001#6 ++ size ∧ encode m (.xor size) = 0b101010#6 ++ size) ∧
  BinaryCompletes .orr (fun a b _ => a ||| b) (fun a b _ => decide (a ||| b = 0)) ∧
  BinaryCompletes .and (fun a b _ => a &&& b) (fun a b _ => decide (a &&& b = 0)) ∧
  BinaryCompletes .xor (fun a b _ => a ^^^ b) (fun a b _ => decide (a = b))

/-- 41_binary_alu.md R119, as written (the spec's D26; log 15). -/
def Obligations.XndClearsTheSlotAndSetsTheCarry : Prop :=
  (∀ (m : NibbleMaps) (size : BitVec 2), encode m (.xnd size) = 0b101011#6 ++ size) ∧
  BinaryCompletes .xnd (fun _ _ _ => 0x00) (fun _ _ _ => true)

/-- 41_binary_alu.md section 6: for numbers of 1 to 4 bytes on the stack, away from the console, `add (n-1)` run `n` times
adds `Y` and the carry-in into `X`, and the last carry is the carry out of the whole sum. -/
def Obligations.AddChainAddsMultiByteNumbers : Prop :=
  ∀ (n : Nat) (s : State), 1 ≤ n → n ≤ 4 → (∀ k, k < 2 * n → s.sp + BitVec.ofNat 8 k ≠ s.params.consoleAddr) →
    ∃ t, execTimes (.add (BitVec.ofNat 2 (n - 1))) n s = some t ∧ t.sp = s.sp + BitVec.ofNat 8 n ∧
      numberAt t.mem t.sp n + 256 ^ n * t.cf.toNat =
        numberAt s.mem t.sp n + numberAt s.mem s.sp n + s.cf.toNat ∧
      (∀ a, (∀ k, k < n → a ≠ t.sp + BitVec.ofNat 8 k) → t.mem.read a = s.mem.read a) ∧
      t = { s with sp := t.sp, cf := t.cf, mem := t.mem }

/-- 41_binary_alu.md section 6: likewise `sub (n-1)` run `n` times subtracts `Y` and the borrow-in from `X`, and the last
borrow is the borrow of the whole difference. -/
def Obligations.SubChainSubtractsMultiByteNumbers : Prop :=
  ∀ (n : Nat) (s : State), 1 ≤ n → n ≤ 4 → (∀ k, k < 2 * n → s.sp + BitVec.ofNat 8 k ≠ s.params.consoleAddr) →
    ∃ t, execTimes (.sub (BitVec.ofNat 2 (n - 1))) n s = some t ∧ t.sp = s.sp + BitVec.ofNat 8 n ∧
      numberAt t.mem t.sp n + numberAt s.mem s.sp n + s.cf.toNat =
        numberAt s.mem t.sp n + 256 ^ n * t.cf.toNat ∧
      (∀ a, (∀ k, k < n → a ≠ t.sp + BitVec.ofNat 8 k) → t.mem.read a = s.mem.read a) ∧
      t = { s with sp := t.sp, cf := t.cf, mem := t.mem }

/-! ## The unary ALU group (42_unary_alu.md; the one read and one write of every operation is the spec's D10) -/

/-- 42_unary_alu.md R131, R132, R133. That `encode` writes the byte 0xB over the nibble, of all the aliases of
30_encoding.md section 2, is the model's choice (log 12). -/
def Obligations.IncDecNegReplaceTheTop : Prop :=
  (∀ m : NibbleMaps, encode m .inc = 0xB#4 ++ m.unary.inc ∧ encode m .dec = 0xB#4 ++ m.unary.dec ∧
    encode m .neg = 0xB#4 ++ m.unary.neg) ∧
  encode refNibbles .inc = 0xB0 ∧ encode refNibbles .dec = 0xB1 ∧ encode refNibbles .neg = 0xB2 ∧
  UnaryCompletes .inc (fun x _ => x + 1) (fun _ c => c) ∧ UnaryCompletes .dec (fun x _ => x - 1) (fun _ c => c) ∧
  UnaryCompletes .neg (fun x _ => -x) (fun _ c => c)

/-- 42_unary_alu.md R134, R135: the shifts through the carry; a left shift is `2x + cf` and its carry the bit above. That
`encode` writes the byte 0xB over the nibble, of all the aliases of 30_encoding.md section 2, is the model's choice
(log 12). -/
def Obligations.ShlShrShiftThroughTheCarry : Prop :=
  (∀ m : NibbleMaps, encode m .shl = 0xB#4 ++ m.unary.shl ∧ encode m .shr = 0xB#4 ++ m.unary.shr) ∧
  encode refNibbles .shl = 0xB3 ∧ encode refNibbles .shr = 0xB4 ∧
  UnaryCompletes .shl (fun x c => (x.setWidth 7) ++ BitVec.ofBool c) (fun x _ => x.msb) ∧
  UnaryCompletes .shr (fun x c => BitVec.ofBool c ++ (x.extractLsb' 1 7)) (fun x _ => x[0])

/-- 42_unary_alu.md R136, R137. That `encode` writes the byte 0xB over the nibble, of all the aliases of 30_encoding.md
section 2, is the model's choice (log 12). -/
def Obligations.NotBufReplaceTheTopAndTestForZero : Prop :=
  (∀ m : NibbleMaps, encode m .not = 0xB#4 ++ m.unary.not ∧ encode m .buf = 0xB#4 ++ m.unary.buf) ∧
  encode refNibbles .not = 0xB5 ∧ encode refNibbles .buf = 0xB6 ∧
  UnaryCompletes .not (fun x _ => ~~~x) (fun x _ => decide (x = 0xFF)) ∧
  UnaryCompletes .buf (fun x _ => x) (fun x _ => decide (x = 0x00))

/-! ## The offset group (43_offset.md; which value of bit 4 is which is the spec's D2) -/

/-- 43_offset.md R150: the read is made before the push, at `sp + offset` with `sp` before the push. -/
def Obligations.LdoPushesTheByteAtTheOffset : Prop :=
  ∀ (offset : Nibble) (m : NibbleMaps) (s : State),
    let v := memRead (offsetAddr s.sp offset) s
    encode m (.ldo offset) = 0b1100#4 ++ offset ∧
    Completes (.ldo offset) s v.2 s.ip (s.sp - 1) s.cf [(s.sp - 1, v.1)]

/-- 43_offset.md R151: the pop comes first, and the address is taken from `sp` after it. -/
def Obligations.StoStoresThePoppedByteAtTheOffset : Prop :=
  ∀ (offset : Nibble) (m : NibbleMaps) (s : State),
    let v := memRead s.sp s
    encode m (.sto offset) = 0b1101#4 ++ offset ∧
    Completes (.sto offset) s v.2 s.ip (s.sp + 1) s.cf [(offsetAddr (s.sp + 1) offset, v.1)]

/-! ## The register/flag group (44_register_flag.md)

In each, the encoding is 0xE over `REG_NIBBLE` of the operation, for every map (30_encoding.md section 2); its byte under
the spec's reference map REF (D4; log 2) is stated as well. -/

/-- 44_register_flag.md R160. -/
def Obligations.LdaReplacesTheTopByTheByteItPointsAt : Prop :=
  (∀ m : NibbleMaps, encode m .lda = 0xE#4 ++ m.reg.lda) ∧ encode refNibbles .lda = 0xE0 ∧
  ∀ s : State,
    let a := memRead s.sp s
    let v := memRead a.1 a.2
    Completes .lda s v.2 s.ip s.sp s.cf [(s.sp, v.1)] ∧ (s.sp ≠ s.params.consoleAddr → a.1 = s.sp → v.1 = a.1)

/-- 44_register_flag.md R161. -/
def Obligations.StaStoresTheSecondAtTheTop : Prop :=
  (∀ m : NibbleMaps, encode m .sta = 0xE#4 ++ m.reg.sta) ∧ encode refNibbles .sta = 0xE1 ∧
  ∀ s : State,
    let a := memRead s.sp s
    let v := memRead (s.sp + 1) a.2
    Completes .sta s v.2 s.ip (s.sp + 2) s.cf [(a.1, v.1)]

/-- 44_register_flag.md section 2 (the value pushed is the spec's D12): `ldi` pushes `ip`, which in a step that fetched it
at `p` is `p + 1`. -/
def Obligations.LdiPushesTheNextAddress : Prop :=
  (∀ m : NibbleMaps, encode m .ldi = 0xE#4 ++ m.reg.ldi) ∧ encode refNibbles .ldi = 0xE2 ∧
  (∀ s : State, Completes .ldi s s s.ip (s.sp - 1) s.cf [(s.sp - 1, s.ip)]) ∧
  ∀ s : State, s.status = .running → decode s.params.nibbles (fetch s).1 = .instr .ldi →
    s.sp - 1 ≠ s.params.consoleAddr → ∃ t, step s = .next t ∧ t.mem.read (s.sp - 1) = s.ip + 1

/-- 44_register_flag.md R163: `sti` jumps to the popped byte, and no other instruction changes `ip` after its fetch. -/
def Obligations.StiJumpsAndNothingElseDoes : Prop :=
  (∀ m : NibbleMaps, encode m .sti = 0xE#4 ++ m.reg.sti) ∧ encode refNibbles .sti = 0xE3 ∧
  (∀ s : State,
    let t := memRead s.sp s
    Completes .sti s t.2 t.1 (s.sp + 1) s.cf []) ∧
  ∀ (i : Instr) (s t : State), i ≠ .sti → exec i s = .next t → t.ip = s.ip

/-- 44_register_flag.md section 2 (the value pushed is the spec's D11). -/
def Obligations.LdsPushesTheOldStackPointer : Prop :=
  (∀ m : NibbleMaps, encode m .lds = 0xE#4 ++ m.reg.lds) ∧ encode refNibbles .lds = 0xE4 ∧
  ∀ s : State, Completes .lds s s s.ip (s.sp - 1) s.cf [(s.sp - 1, s.sp)]

/-- 44_register_flag.md R165. -/
def Obligations.StsSetsTheStackPointer : Prop :=
  (∀ m : NibbleMaps, encode m .sts = 0xE#4 ++ m.reg.sts) ∧ encode refNibbles .sts = 0xE5 ∧
  ∀ s : State,
    let v := memRead s.sp s
    Completes .sts s v.2 s.ip v.1 s.cf []

/-- 44_register_flag.md R166, R167, R168. -/
def Obligations.ClcSecFlcWriteTheCarryAlone : Prop :=
  (∀ m : NibbleMaps, encode m .clc = 0xE#4 ++ m.reg.clc ∧ encode m .sec = 0xE#4 ++ m.reg.sec ∧
    encode m .flc = 0xE#4 ++ m.reg.flc) ∧
  encode refNibbles .clc = 0xE6 ∧ encode refNibbles .sec = 0xE7 ∧ encode refNibbles .flc = 0xE8 ∧
  ∀ s : State, Completes .clc s s s.ip s.sp false [] ∧ Completes .sec s s s.ip s.sp true [] ∧
    Completes .flc s s s.ip s.sp (!s.cf) []

/-- 44_register_flag.md R169: `nop` has no effect, and it is the only instruction that never has one. -/
def Obligations.NopIsTheOnlyInstructionWithoutEffect : Prop :=
  (∀ m : NibbleMaps, encode m .nop = 0xE#4 ++ m.reg.nop) ∧ encode refNibbles .nop = 0xE9 ∧
  (∀ s : State, exec .nop s = .next s) ∧
  ∀ i : Instr, (∀ s : State, exec i s = .next s) → i = .nop

/-- 44_register_flag.md R170: `pop` moves `sp` and makes no bus read. -/
def Obligations.PopMovesTheStackPointerWithoutARead : Prop :=
  (∀ m : NibbleMaps, encode m .pop = 0xE#4 ++ m.reg.pop) ∧ encode refNibbles .pop = 0xEA ∧
  ∀ s : State, Completes .pop s s s.ip (s.sp + 1) s.cf []
end

