-- ==== Sys2Proof/Laws/Decode.lean ====
section
/-! SUPPORT. The nibble maps and their inverses, and the fields of an opcode byte. -/

namespace Sys2Proof

/-- The low nibble of an opcode, as a field and as a truncation. -/
theorem field_low_nibble (op : Byte) : field op 0 4 = op.setWidth 4 := by
  ext i hi; simp [field]

/-- In a list on which `f` is injective, the first element with `u`'s image is `u`. -/
theorem find_of_nodup {α : Type} (f : α → Nibble) (l : List α) (u : α) (h : (l.map f).Nodup) (hu : u ∈ l) :
    l.find? (fun v => f v == f u) = some u := by
  induction l with
  | nil => simp at hu
  | cons v l ih =>
    simp only [List.map_cons, List.nodup_cons, List.mem_map, not_exists, not_and] at h
    rcases List.mem_cons.mp hu with rfl | hul
    · simp
    · have hne : f v ≠ f u := fun e => h.1 u hul e.symm
      simp [hne, ih h.2 hul]

theorem UnaryOp.mem_all (u : UnaryOp) : u ∈ UnaryOp.all := by cases u <;> decide

theorem RegOp.mem_all (r : RegOp) : r ∈ RegOp.all := by cases r <;> decide

/-- Under an injective map the inverse finds the operation back (30_encoding.md R77). -/
theorem unaryOf_of (m : UnaryNibble) (h : m.wf = true) (u : UnaryOp) : unaryOf m (m.of u) = some u :=
  find_of_nodup m.of _ u (of_decide_eq_true h) u.mem_all

/-- What the inverse answers has that nibble. -/
theorem of_unaryOf {m : UnaryNibble} {n : Nibble} {u : UnaryOp} (h : unaryOf m n = some u) : m.of u = n := by
  simpa using List.find?_some h

/-- The inverse answers nothing exactly when no operation has that nibble. -/
theorem unaryOf_eq_none {m : UnaryNibble} {n : Nibble} : unaryOf m n = none ↔ ∀ u, m.of u ≠ n := by
  simp [unaryOf, UnaryOp.mem_all]

/-- Under an injective map the inverse finds the operation back (30_encoding.md R79). -/
theorem regOf_of (m : RegNibble) (h : m.wf = true) (r : RegOp) : regOf m (m.of r) = some r :=
  find_of_nodup m.of _ r (of_decide_eq_true h) r.mem_all

/-- What the inverse answers has that nibble. -/
theorem of_regOf {m : RegNibble} {n : Nibble} {r : RegOp} (h : regOf m n = some r) : m.of r = n := by
  simpa using List.find?_some h

/-- The inverse answers nothing exactly when no operation has that nibble. -/
theorem regOf_eq_none {m : RegNibble} {n : Nibble} : regOf m n = none ↔ ∀ r, m.of r ≠ n := by
  simp [regOf, RegOp.mem_all]

end Sys2Proof
end

