-- ==== Sys2Proof/Laws/Memory.lean ====
section
/-! SUPPORT. The store: a read after a write, and the canonical form every write keeps. -/

namespace Sys2Proof.Machine

@[simp] theorem Memory.lookup_nil (k : Nat) : Memory.lookup [] k = unlistedByte := rfl

theorem Memory.lookup_cons (c : Host.Cell) (m : Memory) (k : Nat) :
    Memory.lookup (c :: m) k = if c.1 = k then c.2 else Memory.lookup m k := rfl

@[simp] theorem Memory.read_nil (a : Byte) : Memory.read [] a = unlistedByte := rfl

theorem Memory.erase_cons (c : Host.Cell) (m : Memory) (k : Nat) :
    Memory.erase (c :: m) k = if c.1 = k then Memory.erase m k else c :: Memory.erase m k := by
  by_cases h : c.1 = k <;> simp [Memory.erase, h]

theorem Memory.lookup_erase_self (m : Memory) (k : Nat) : (m.erase k).lookup k = unlistedByte := by
  induction m with
  | nil => rfl
  | cons c m ih => by_cases h : c.1 = k <;> simp [Memory.erase_cons, Memory.lookup_cons, h, ih]

theorem Memory.lookup_erase_other (m : Memory) {k j : Nat} (h : j ≠ k) : (m.erase k).lookup j = m.lookup j := by
  induction m with
  | nil => rfl
  | cons c m ih =>
    by_cases hc : c.1 = k
    · simp [Memory.erase_cons, Memory.lookup_cons, hc, ih, h.symm]
    · simp [Memory.erase_cons, Memory.lookup_cons, hc, ih]

theorem Memory.lookup_insertCell_other (m : Memory) {k j : Nat} (v : Byte) (h : j ≠ k) :
    (m.insertCell k v).lookup j = m.lookup j := by
  induction m with
  | nil => simp [Memory.insertCell, Memory.lookup_cons, h.symm]
  | cons c m ih =>
    by_cases hc : k < c.1
    · simp [Memory.insertCell, Memory.lookup_cons, hc, h.symm]
    · simp [Memory.insertCell, Memory.lookup_cons, hc, ih]

/-- Inserting where the key stands nowhere makes the key read as the new byte. -/
theorem Memory.lookup_insertCell_erase (m : Memory) (k : Nat) (v : Byte) :
    ((m.erase k).insertCell k v).lookup k = v := by
  induction m with
  | nil => simp [Memory.erase, Memory.insertCell, Memory.lookup_cons]
  | cons c m ih =>
    by_cases hc : c.1 = k
    · simpa [Memory.erase_cons, hc] using ih
    · by_cases hk : k < c.1 <;>
        simp [Memory.erase_cons, hc, Memory.insertCell, hk, Memory.lookup_cons, ih]

/-- A byte written reads back. -/
@[simp] theorem Memory.read_write_same (m : Memory) (a v : Byte) : (m.write a v).read a = v := by
  by_cases h : v = unlistedByte
  · simp [Memory.write, Memory.read, h, Memory.lookup_erase_self]
  · simp [Memory.write, Memory.read, h, Memory.lookup_insertCell_erase]

/-- A write leaves every other address alone. -/
theorem Memory.read_write_other (m : Memory) {a b : Byte} (v : Byte) (h : b ≠ a) :
    (m.write a v).read b = m.read b := by
  have hk : b.toNat ≠ a.toNat := fun e => h (BitVec.eq_of_toNat_eq e)
  by_cases hv : v = unlistedByte
  · simp [Memory.write, Memory.read, hv, Memory.lookup_erase_other _ hk]
  · simp [Memory.write, Memory.read, hv, Memory.lookup_insertCell_other _ _ hk, Memory.lookup_erase_other _ hk]

/-- What every address reads as after a write. -/
theorem Memory.read_write (m : Memory) (a b v : Byte) :
    (m.write a v).read b = if a = b then v else m.read b := by
  by_cases h : a = b
  · subst h; simp
  · simp [h, Memory.read_write_other m v (Ne.symm h)]

theorem Memory.wfFrom_mono {lo hi : Nat} (h : lo ≤ hi) (m : Memory) (hm : m.wfFrom hi = true) :
    m.wfFrom lo = true := by
  cases m with
  | nil => rfl
  | cons c m => simp [Memory.wfFrom] at hm ⊢; exact ⟨⟨⟨by omega, hm.1.1.2⟩, hm.1.2⟩, hm.2⟩

theorem Memory.wfFrom_erase (m : Memory) (lo k : Nat) (hm : m.wfFrom lo = true) : (m.erase k).wfFrom lo = true := by
  induction m generalizing lo with
  | nil => exact hm
  | cons c m ih =>
    simp only [Memory.wfFrom, Bool.and_eq_true, decide_eq_true_eq] at hm
    rw [Memory.erase_cons]
    split
    · exact Memory.wfFrom_mono (by omega) _ (ih _ hm.2)
    · simp [Memory.wfFrom, hm.1, ih _ hm.2]

theorem Memory.erase_eq_self (m : Memory) (lo k : Nat) (hk : k < lo) (hm : m.wfFrom lo = true) : m.erase k = m := by
  induction m generalizing lo with
  | nil => rfl
  | cons c m ih =>
    simp only [Memory.wfFrom, Bool.and_eq_true, decide_eq_true_eq] at hm
    rw [Memory.erase_cons, if_neg (by omega), ih _ (by omega) hm.2]

theorem Memory.wfFrom_insertCell_erase (m : Memory) (lo k : Nat) (v : Byte) (hlo : lo ≤ k) (hk : k < 256)
    (hv : v ≠ unlistedByte) (hm : m.wfFrom lo = true) : ((m.erase k).insertCell k v).wfFrom lo = true := by
  induction m generalizing lo with
  | nil => simp [Memory.erase, Memory.insertCell, Memory.wfFrom, hlo, hk, hv]
  | cons c m ih =>
    simp only [Memory.wfFrom, Bool.and_eq_true, decide_eq_true_eq] at hm
    rw [Memory.erase_cons]
    split
    next hc => exact ih lo hlo (Memory.wfFrom_mono (by omega) _ hm.2)
    next hc =>
      by_cases hlt : k < c.1
      · simp [Memory.insertCell, hlt, Memory.wfFrom, hlo, hk, hv, hm.1.1.2, hm.1.2]
        exact Memory.wfFrom_mono (by omega) _ (Memory.wfFrom_erase _ _ _ hm.2)
      · simp [Memory.insertCell, hlt, Memory.wfFrom, hm.1]
        exact ih _ (by omega) hm.2

/-- Every write keeps the canonical form. -/
theorem Memory.wf_write (m : Memory) (a v : Byte) (hm : m.wf = true) : (m.write a v).wf = true := by
  by_cases h : v = unlistedByte
  · simpa [Memory.wf, Memory.write, h] using Memory.wfFrom_erase m 0 _ hm
  · simpa [Memory.wf, Memory.write, h] using Memory.wfFrom_insertCell_erase m 0 _ v (Nat.zero_le _) a.isLt h hm

/-- Canonical stores that read alike from `lo` on are the same list. -/
theorem Memory.lookup_below (m : Memory) (lo k : Nat) (hk : k < lo) (hm : m.wfFrom lo = true) :
    m.lookup k = unlistedByte := by
  induction m generalizing lo with
  | nil => rfl
  | cons c m ih =>
    simp only [Memory.wfFrom, Bool.and_eq_true, decide_eq_true_eq] at hm
    rw [Memory.lookup_cons, if_neg (by omega), ih _ (by omega) hm.2]

theorem Memory.eq_of_lookup_eq (m n : Memory) (lo : Nat) (hm : m.wfFrom lo = true) (hn : n.wfFrom lo = true)
    (h : ∀ k, k < 256 → m.lookup k = n.lookup k) : m = n := by
  induction m generalizing n lo with
  | nil =>
    cases n with
    | nil => rfl
    | cons d n =>
      simp only [Memory.wfFrom, Bool.and_eq_true, decide_eq_true_eq, bne_iff_ne] at hn
      have := h d.1 hn.1.1.2
      simp [Memory.lookup_cons] at this
      exact absurd this.symm hn.1.2
  | cons c m ih =>
    simp only [Memory.wfFrom, Bool.and_eq_true, decide_eq_true_eq, bne_iff_ne] at hm
    cases n with
    | nil =>
      have := h c.1 hm.1.1.2
      simp [Memory.lookup_cons] at this
      exact absurd this hm.1.2
    | cons d n =>
      simp only [Memory.wfFrom, Bool.and_eq_true, decide_eq_true_eq, bne_iff_ne] at hn
      have hcd : c.1 = d.1 := by
        rcases Nat.lt_trichotomy c.1 d.1 with hlt | heq | hgt
        · have := h c.1 hm.1.1.2
          rw [Memory.lookup_cons, if_pos rfl, Memory.lookup_cons, if_neg (by omega),
            Memory.lookup_below n _ _ (by omega) hn.2] at this
          exact absurd this hm.1.2
        · exact heq
        · have := h d.1 hn.1.1.2
          rw [Memory.lookup_cons, if_neg (by omega), Memory.lookup_below m _ _ (by omega) hm.2,
            Memory.lookup_cons, if_pos rfl] at this
          exact absurd this.symm hn.1.2
      have h2 : c.2 = d.2 := by
        have := h c.1 hm.1.1.2
        simpa [Memory.lookup_cons, hcd] using this
      have htail : m = n := by
        refine ih n (c.1 + 1) hm.2 (hcd ▸ hn.2) (fun k hk => ?_)
        by_cases hkc : k = c.1
        · subst hkc
          rw [Memory.lookup_below m _ _ (Nat.lt_succ_self _) hm.2,
            Memory.lookup_below n _ _ (Nat.lt_succ_self _) (hcd ▸ hn.2)]
        · have := h k hk
          rwa [Memory.lookup_cons, if_neg (Ne.symm hkc), Memory.lookup_cons, if_neg (by omega)] at this
      rw [htail, Prod.ext hcd h2]

/-- Canonical stores that read alike everywhere are equal data. -/
theorem Memory.eq_of_read_eq (m n : Memory) (hm : m.wf = true) (hn : n.wf = true) (h : ∀ a, m.read a = n.read a) :
    m = n := by
  refine Memory.eq_of_lookup_eq m n 0 hm hn (fun k hk => ?_)
  have := h (BitVec.ofNat 8 k)
  simpa [Memory.read, BitVec.toNat_ofNat, Nat.mod_eq_of_lt hk] using this

end Sys2Proof.Machine
end

