-- ==== Sys2Proof/Laws/State.lean ====
section
/-! SUPPORT. One lemma per field per field update of State, true by rfl, so that no later proof unfolds an update. -/

namespace Sys2Proof.Machine

/-! ## `State.setIp` -/

@[simp] theorem State.setIp_ip (s : State) (v : Byte) : (s.setIp v).ip = v := rfl
@[simp] theorem State.setIp_sp (s : State) (v : Byte) : (s.setIp v).sp = s.sp := rfl
@[simp] theorem State.setIp_cf (s : State) (v : Byte) : (s.setIp v).cf = s.cf := rfl
@[simp] theorem State.setIp_mem (s : State) (v : Byte) : (s.setIp v).mem = s.mem := rfl
@[simp] theorem State.setIp_inq (s : State) (v : Byte) : (s.setIp v).inq = s.inq := rfl
@[simp] theorem State.setIp_status (s : State) (v : Byte) : (s.setIp v).status = s.status := rfl
@[simp] theorem State.setIp_hostIn (s : State) (v : Byte) : (s.setIp v).hostIn = s.hostIn := rfl
@[simp] theorem State.setIp_history (s : State) (v : Byte) : (s.setIp v).history = s.history := rfl
@[simp] theorem State.setIp_params (s : State) (v : Byte) : (s.setIp v).params = s.params := rfl

/-! ## `State.setSp` -/

@[simp] theorem State.setSp_ip (s : State) (v : Byte) : (s.setSp v).ip = s.ip := rfl
@[simp] theorem State.setSp_sp (s : State) (v : Byte) : (s.setSp v).sp = v := rfl
@[simp] theorem State.setSp_cf (s : State) (v : Byte) : (s.setSp v).cf = s.cf := rfl
@[simp] theorem State.setSp_mem (s : State) (v : Byte) : (s.setSp v).mem = s.mem := rfl
@[simp] theorem State.setSp_inq (s : State) (v : Byte) : (s.setSp v).inq = s.inq := rfl
@[simp] theorem State.setSp_status (s : State) (v : Byte) : (s.setSp v).status = s.status := rfl
@[simp] theorem State.setSp_hostIn (s : State) (v : Byte) : (s.setSp v).hostIn = s.hostIn := rfl
@[simp] theorem State.setSp_history (s : State) (v : Byte) : (s.setSp v).history = s.history := rfl
@[simp] theorem State.setSp_params (s : State) (v : Byte) : (s.setSp v).params = s.params := rfl

/-! ## `State.setCf` -/

@[simp] theorem State.setCf_ip (s : State) (v : Bool) : (s.setCf v).ip = s.ip := rfl
@[simp] theorem State.setCf_sp (s : State) (v : Bool) : (s.setCf v).sp = s.sp := rfl
@[simp] theorem State.setCf_cf (s : State) (v : Bool) : (s.setCf v).cf = v := rfl
@[simp] theorem State.setCf_mem (s : State) (v : Bool) : (s.setCf v).mem = s.mem := rfl
@[simp] theorem State.setCf_inq (s : State) (v : Bool) : (s.setCf v).inq = s.inq := rfl
@[simp] theorem State.setCf_status (s : State) (v : Bool) : (s.setCf v).status = s.status := rfl
@[simp] theorem State.setCf_hostIn (s : State) (v : Bool) : (s.setCf v).hostIn = s.hostIn := rfl
@[simp] theorem State.setCf_history (s : State) (v : Bool) : (s.setCf v).history = s.history := rfl
@[simp] theorem State.setCf_params (s : State) (v : Bool) : (s.setCf v).params = s.params := rfl

/-! ## `State.setMem` -/

@[simp] theorem State.setMem_ip (s : State) (v : Memory) : (s.setMem v).ip = s.ip := rfl
@[simp] theorem State.setMem_sp (s : State) (v : Memory) : (s.setMem v).sp = s.sp := rfl
@[simp] theorem State.setMem_cf (s : State) (v : Memory) : (s.setMem v).cf = s.cf := rfl
@[simp] theorem State.setMem_mem (s : State) (v : Memory) : (s.setMem v).mem = v := rfl
@[simp] theorem State.setMem_inq (s : State) (v : Memory) : (s.setMem v).inq = s.inq := rfl
@[simp] theorem State.setMem_status (s : State) (v : Memory) : (s.setMem v).status = s.status := rfl
@[simp] theorem State.setMem_hostIn (s : State) (v : Memory) : (s.setMem v).hostIn = s.hostIn := rfl
@[simp] theorem State.setMem_history (s : State) (v : Memory) : (s.setMem v).history = s.history := rfl
@[simp] theorem State.setMem_params (s : State) (v : Memory) : (s.setMem v).params = s.params := rfl

/-! ## `State.setInq` -/

@[simp] theorem State.setInq_ip (s : State) (v : List Byte) : (s.setInq v).ip = s.ip := rfl
@[simp] theorem State.setInq_sp (s : State) (v : List Byte) : (s.setInq v).sp = s.sp := rfl
@[simp] theorem State.setInq_cf (s : State) (v : List Byte) : (s.setInq v).cf = s.cf := rfl
@[simp] theorem State.setInq_mem (s : State) (v : List Byte) : (s.setInq v).mem = s.mem := rfl
@[simp] theorem State.setInq_inq (s : State) (v : List Byte) : (s.setInq v).inq = v := rfl
@[simp] theorem State.setInq_status (s : State) (v : List Byte) : (s.setInq v).status = s.status := rfl
@[simp] theorem State.setInq_hostIn (s : State) (v : List Byte) : (s.setInq v).hostIn = s.hostIn := rfl
@[simp] theorem State.setInq_history (s : State) (v : List Byte) : (s.setInq v).history = s.history := rfl
@[simp] theorem State.setInq_params (s : State) (v : List Byte) : (s.setInq v).params = s.params := rfl

/-! ## `State.setStatus` -/

@[simp] theorem State.setStatus_ip (s : State) (v : Status) : (s.setStatus v).ip = s.ip := rfl
@[simp] theorem State.setStatus_sp (s : State) (v : Status) : (s.setStatus v).sp = s.sp := rfl
@[simp] theorem State.setStatus_cf (s : State) (v : Status) : (s.setStatus v).cf = s.cf := rfl
@[simp] theorem State.setStatus_mem (s : State) (v : Status) : (s.setStatus v).mem = s.mem := rfl
@[simp] theorem State.setStatus_inq (s : State) (v : Status) : (s.setStatus v).inq = s.inq := rfl
@[simp] theorem State.setStatus_status (s : State) (v : Status) : (s.setStatus v).status = v := rfl
@[simp] theorem State.setStatus_hostIn (s : State) (v : Status) : (s.setStatus v).hostIn = s.hostIn := rfl
@[simp] theorem State.setStatus_history (s : State) (v : Status) : (s.setStatus v).history = s.history := rfl
@[simp] theorem State.setStatus_params (s : State) (v : Status) : (s.setStatus v).params = s.params := rfl

/-! ## `State.setHostIn` -/

@[simp] theorem State.setHostIn_ip (s : State) (v : List HostAnswer) : (s.setHostIn v).ip = s.ip := rfl
@[simp] theorem State.setHostIn_sp (s : State) (v : List HostAnswer) : (s.setHostIn v).sp = s.sp := rfl
@[simp] theorem State.setHostIn_cf (s : State) (v : List HostAnswer) : (s.setHostIn v).cf = s.cf := rfl
@[simp] theorem State.setHostIn_mem (s : State) (v : List HostAnswer) : (s.setHostIn v).mem = s.mem := rfl
@[simp] theorem State.setHostIn_inq (s : State) (v : List HostAnswer) : (s.setHostIn v).inq = s.inq := rfl
@[simp] theorem State.setHostIn_status (s : State) (v : List HostAnswer) : (s.setHostIn v).status = s.status := rfl
@[simp] theorem State.setHostIn_hostIn (s : State) (v : List HostAnswer) : (s.setHostIn v).hostIn = v := rfl
@[simp] theorem State.setHostIn_history (s : State) (v : List HostAnswer) : (s.setHostIn v).history = s.history := rfl
@[simp] theorem State.setHostIn_params (s : State) (v : List HostAnswer) : (s.setHostIn v).params = s.params := rfl

/-! ## `State.record` -/

@[simp] theorem State.record_ip (s : State) (v : ConsoleEvent) : (s.record v).ip = s.ip := rfl
@[simp] theorem State.record_sp (s : State) (v : ConsoleEvent) : (s.record v).sp = s.sp := rfl
@[simp] theorem State.record_cf (s : State) (v : ConsoleEvent) : (s.record v).cf = s.cf := rfl
@[simp] theorem State.record_mem (s : State) (v : ConsoleEvent) : (s.record v).mem = s.mem := rfl
@[simp] theorem State.record_inq (s : State) (v : ConsoleEvent) : (s.record v).inq = s.inq := rfl
@[simp] theorem State.record_status (s : State) (v : ConsoleEvent) : (s.record v).status = s.status := rfl
@[simp] theorem State.record_hostIn (s : State) (v : ConsoleEvent) : (s.record v).hostIn = s.hostIn := rfl
@[simp] theorem State.record_history (s : State) (v : ConsoleEvent) : (s.record v).history = s.history ++ [v] := rfl
@[simp] theorem State.record_params (s : State) (v : ConsoleEvent) : (s.record v).params = s.params := rfl

end Sys2Proof.Machine
end

