-- ==== Sys2Proof/Laws/Ops.lean ====
section
/-! SUPPORT. What each shared operation can do, said once: the console, the bus, the stack, the fetch, traps, image load
and reset. Later proofs cite these and do not unfold the operations. -/

namespace Sys2Proof.Machine

/-! ## The console -/

/-- The host is asked once: the next ready answer is taken, or a free value; nothing else changes. -/
theorem hostAsk_cases (s : State) :
    (∃ answer rest, s.hostIn = answer :: rest ∧ hostAsk s = (answer, (s.setHostIn rest).record (.asked answer))) ∨
    (s.hostIn = [] ∧ hostAsk s = (Config.hostInput s.history, s.record (.asked (Config.hostInput s.history)))) := by
  cases h : s.hostIn with
  | nil => exact .inr ⟨rfl, by simp [hostAsk, h]⟩
  | cons answer rest => exact .inl ⟨answer, rest, rfl, by simp [hostAsk, h]⟩

/-- A console read takes the head of the pushback list, or else one answer of the host. -/
theorem consoleRead_cases (s : State) :
    (∃ b rest, s.inq = b :: rest ∧ consoleRead s = (b, (s.setInq rest).record (.pushedBack b))) ∨
    (s.inq = [] ∧ consoleRead s = (answerByte (hostAsk s).1, (hostAsk s).2)) := by
  cases h : s.inq with
  | nil => exact .inr ⟨rfl, by simp [consoleRead, h]⟩
  | cons b rest => exact .inl ⟨b, rest, rfl, by simp [consoleRead, h]⟩

@[simp] theorem hostAsk_ip (s : State) : (hostAsk s).2.ip = s.ip := by
  rcases hostAsk_cases s with ⟨_, _, _, h⟩ | ⟨_, h⟩ <;> simp [h]

@[simp] theorem hostAsk_sp (s : State) : (hostAsk s).2.sp = s.sp := by
  rcases hostAsk_cases s with ⟨_, _, _, h⟩ | ⟨_, h⟩ <;> simp [h]

@[simp] theorem hostAsk_cf (s : State) : (hostAsk s).2.cf = s.cf := by
  rcases hostAsk_cases s with ⟨_, _, _, h⟩ | ⟨_, h⟩ <;> simp [h]

@[simp] theorem hostAsk_mem (s : State) : (hostAsk s).2.mem = s.mem := by
  rcases hostAsk_cases s with ⟨_, _, _, h⟩ | ⟨_, h⟩ <;> simp [h]

@[simp] theorem hostAsk_inq (s : State) : (hostAsk s).2.inq = s.inq := by
  rcases hostAsk_cases s with ⟨_, _, _, h⟩ | ⟨_, h⟩ <;> simp [h]

@[simp] theorem hostAsk_status (s : State) : (hostAsk s).2.status = s.status := by
  rcases hostAsk_cases s with ⟨_, _, _, h⟩ | ⟨_, h⟩ <;> simp [h]

@[simp] theorem hostAsk_params (s : State) : (hostAsk s).2.params = s.params := by
  rcases hostAsk_cases s with ⟨_, _, _, h⟩ | ⟨_, h⟩ <;> simp [h]

@[simp] theorem consoleRead_ip (s : State) : (consoleRead s).2.ip = s.ip := by
  rcases consoleRead_cases s with ⟨_, _, _, h⟩ | ⟨_, h⟩ <;> simp [h]

@[simp] theorem consoleRead_sp (s : State) : (consoleRead s).2.sp = s.sp := by
  rcases consoleRead_cases s with ⟨_, _, _, h⟩ | ⟨_, h⟩ <;> simp [h]

@[simp] theorem consoleRead_cf (s : State) : (consoleRead s).2.cf = s.cf := by
  rcases consoleRead_cases s with ⟨_, _, _, h⟩ | ⟨_, h⟩ <;> simp [h]

@[simp] theorem consoleRead_mem (s : State) : (consoleRead s).2.mem = s.mem := by
  rcases consoleRead_cases s with ⟨_, _, _, h⟩ | ⟨_, h⟩ <;> simp [h]

@[simp] theorem consoleRead_status (s : State) : (consoleRead s).2.status = s.status := by
  rcases consoleRead_cases s with ⟨_, _, _, h⟩ | ⟨_, h⟩ <;> simp [h]

@[simp] theorem consoleRead_params (s : State) : (consoleRead s).2.params = s.params := by
  rcases consoleRead_cases s with ⟨_, _, _, h⟩ | ⟨_, h⟩ <;> simp [h]

/-! ## The bus -/

/-- A bus read away from the console address is the store's byte and has no side effect. -/
theorem memRead_store {a : Byte} {s : State} (h : a ≠ s.params.consoleAddr) : memRead a s = (s.mem.read a, s) := if_neg h

/-- A bus read at the console address is a console read. -/
theorem memRead_console {a : Byte} {s : State} (h : a = s.params.consoleAddr) : memRead a s = consoleRead s := if_pos h

/-- A bus write away from the console address changes one byte of the store. -/
theorem memWrite_store {a : Byte} {s : State} (v : Byte) (h : a ≠ s.params.consoleAddr) :
    memWrite a v s = s.setMem (s.mem.write a v) := if_neg h

/-- A bus write at the console address emits the byte. -/
theorem memWrite_console {a : Byte} {s : State} (v : Byte) (h : a = s.params.consoleAddr) :
    memWrite a v s = s.record (.emitted v) := if_pos h

@[simp] theorem memRead_ip (a : Byte) (s : State) : (memRead a s).2.ip = s.ip := by
  by_cases h : a = s.params.consoleAddr
  · simp [memRead_console h]
  · simp [memRead_store h]

@[simp] theorem memRead_sp (a : Byte) (s : State) : (memRead a s).2.sp = s.sp := by
  by_cases h : a = s.params.consoleAddr
  · simp [memRead_console h]
  · simp [memRead_store h]

@[simp] theorem memRead_cf (a : Byte) (s : State) : (memRead a s).2.cf = s.cf := by
  by_cases h : a = s.params.consoleAddr
  · simp [memRead_console h]
  · simp [memRead_store h]

@[simp] theorem memRead_mem (a : Byte) (s : State) : (memRead a s).2.mem = s.mem := by
  by_cases h : a = s.params.consoleAddr
  · simp [memRead_console h]
  · simp [memRead_store h]

@[simp] theorem memRead_status (a : Byte) (s : State) : (memRead a s).2.status = s.status := by
  by_cases h : a = s.params.consoleAddr
  · simp [memRead_console h]
  · simp [memRead_store h]

@[simp] theorem memRead_params (a : Byte) (s : State) : (memRead a s).2.params = s.params := by
  by_cases h : a = s.params.consoleAddr
  · simp [memRead_console h]
  · simp [memRead_store h]

@[simp] theorem memWrite_ip (a v : Byte) (s : State) : (memWrite a v s).ip = s.ip := by
  by_cases h : a = s.params.consoleAddr
  · simp [memWrite_console v h]
  · simp [memWrite_store v h]

@[simp] theorem memWrite_sp (a v : Byte) (s : State) : (memWrite a v s).sp = s.sp := by
  by_cases h : a = s.params.consoleAddr
  · simp [memWrite_console v h]
  · simp [memWrite_store v h]

@[simp] theorem memWrite_cf (a v : Byte) (s : State) : (memWrite a v s).cf = s.cf := by
  by_cases h : a = s.params.consoleAddr
  · simp [memWrite_console v h]
  · simp [memWrite_store v h]

@[simp] theorem memWrite_inq (a v : Byte) (s : State) : (memWrite a v s).inq = s.inq := by
  by_cases h : a = s.params.consoleAddr
  · simp [memWrite_console v h]
  · simp [memWrite_store v h]

@[simp] theorem memWrite_status (a v : Byte) (s : State) : (memWrite a v s).status = s.status := by
  by_cases h : a = s.params.consoleAddr
  · simp [memWrite_console v h]
  · simp [memWrite_store v h]

@[simp] theorem memWrite_hostIn (a v : Byte) (s : State) : (memWrite a v s).hostIn = s.hostIn := by
  by_cases h : a = s.params.consoleAddr
  · simp [memWrite_console v h]
  · simp [memWrite_store v h]

@[simp] theorem memWrite_params (a v : Byte) (s : State) : (memWrite a v s).params = s.params := by
  by_cases h : a = s.params.consoleAddr
  · simp [memWrite_console v h]
  · simp [memWrite_store v h]

/-- What the store reads as after a bus write: the byte written, if it reached the store. -/
theorem memWrite_read (a v b : Byte) (s : State) :
    (memWrite a v s).mem.read b = if a = b ∧ b ≠ s.params.consoleAddr then v else s.mem.read b := by
  by_cases h : a = s.params.consoleAddr
  · rw [memWrite_console v h, if_neg (fun hab => hab.2 (hab.1 ▸ h))]
    rfl
  · rw [memWrite_store v h]
    by_cases hb : a = b
    · subst hb; simp [h]
    · simp [hb, Memory.read_write]

/-- What the console saw after a bus write: the byte written, if it reached the console. -/
theorem memWrite_history (a v : Byte) (s : State) :
    (memWrite a v s).history = s.history ++ emissions s.params [(a, v)] := by
  by_cases h : a = s.params.consoleAddr
  · rw [memWrite_console v h]
    simp [emissions, h]
  · simp [memWrite_store v h, emissions, h]

/-- A bus write keeps the store's canonical form. -/
theorem memWrite_wf (a v : Byte) (s : State) (h : s.mem.wf = true) : (memWrite a v s).mem.wf = true := by
  by_cases hc : a = s.params.consoleAddr
  · simpa [memWrite_console v hc] using h
  · simpa [memWrite_store v hc] using Memory.wf_write s.mem a v h

/-- All a bus write does. -/
theorem memWrite_leaves (a v : Byte) (s : State) : LeavesBehind s (memWrite a v s) s.ip s.sp s.cf [(a, v)] where
  ip_eq := memWrite_ip a v s
  sp_eq := memWrite_sp a v s
  cf_eq := memWrite_cf a v s
  status_eq := memWrite_status a v s
  params_eq := memWrite_params a v s
  inq_eq := memWrite_inq a v s
  hostIn_eq := memWrite_hostIn a v s
  history_eq := memWrite_history a v s
  mem_eq b := by simp [memWrite_read, storedAfter]

/-! ## The stack -/

@[simp] theorem pushByte_ip (v : Byte) (s : State) : (pushByte v s).ip = s.ip := by simp [pushByte]

@[simp] theorem pushByte_cf (v : Byte) (s : State) : (pushByte v s).cf = s.cf := by simp [pushByte]

@[simp] theorem pushByte_inq (v : Byte) (s : State) : (pushByte v s).inq = s.inq := by simp [pushByte]

@[simp] theorem pushByte_status (v : Byte) (s : State) : (pushByte v s).status = s.status := by simp [pushByte]

@[simp] theorem pushByte_hostIn (v : Byte) (s : State) : (pushByte v s).hostIn = s.hostIn := by simp [pushByte]

@[simp] theorem pushByte_params (v : Byte) (s : State) : (pushByte v s).params = s.params := by simp [pushByte]

@[simp] theorem pushByte_sp (v : Byte) (s : State) : (pushByte v s).sp = s.sp - 1 := by simp [pushByte]

/-- All a push does: `sp` one lower, one bus write at the new `sp`. -/
theorem pushByte_leaves (v : Byte) (s : State) :
    LeavesBehind s (pushByte v s) s.ip (s.sp - 1) s.cf [(s.sp - 1, v)] where
  ip_eq := pushByte_ip v s
  sp_eq := pushByte_sp v s
  cf_eq := pushByte_cf v s
  status_eq := pushByte_status v s
  params_eq := pushByte_params v s
  inq_eq := pushByte_inq v s
  hostIn_eq := pushByte_hostIn v s
  history_eq := memWrite_history (s.sp - 1) v (s.setSp (s.sp - 1))
  mem_eq := (memWrite_leaves (s.sp - 1) v (s.setSp (s.sp - 1))).mem_eq

/-- A push keeps the store's canonical form. -/
theorem pushByte_wf (v : Byte) (s : State) (h : s.mem.wf = true) : (pushByte v s).mem.wf = true :=
  memWrite_wf _ _ _ (by simpa using h)

/-- A pop answers the bus read at `sp`. -/
theorem popByte_fst (s : State) : (popByte s).1 = (memRead s.sp s).1 := rfl

/-- A pop leaves the state after the bus read at `sp`, with `sp` one higher. -/
theorem popByte_snd (s : State) : (popByte s).2 = (memRead s.sp s).2.setSp (s.sp + 1) := by simp [popByte]

@[simp] theorem popByte_sp (s : State) : (popByte s).2.sp = s.sp + 1 := by simp [popByte_snd]

@[simp] theorem popByte_ip (s : State) : (popByte s).2.ip = s.ip := by simp [popByte_snd]

@[simp] theorem popByte_cf (s : State) : (popByte s).2.cf = s.cf := by simp [popByte_snd]

@[simp] theorem popByte_mem (s : State) : (popByte s).2.mem = s.mem := by simp [popByte_snd]

@[simp] theorem popByte_status (s : State) : (popByte s).2.status = s.status := by simp [popByte_snd]

@[simp] theorem popByte_params (s : State) : (popByte s).2.params = s.params := by simp [popByte_snd]

/-! ## The fetch -/

/-- A fetch is a console read exactly when fetches go through the bus and `ip` is the console address. -/
theorem fetchByte_cases (s : State) :
    (s.params.fetchViaBus = true ∧ s.ip = s.params.consoleAddr ∧ fetchByte s = consoleRead s) ∨
    (¬ (s.params.fetchViaBus = true ∧ s.ip = s.params.consoleAddr) ∧ fetchByte s = (s.mem.read s.ip, s)) := by
  by_cases hv : s.params.fetchViaBus = true
  · by_cases hc : s.ip = s.params.consoleAddr
    · exact .inl ⟨hv, hc, by simp [fetchByte, hv, memRead_console hc]⟩
    · exact .inr ⟨fun h => hc h.2, by simp [fetchByte, hv, memRead_store hc]⟩
  · exact .inr ⟨fun h => hv h.1, by simp [fetchByte, hv]⟩

@[simp] theorem fetchByte_ip (s : State) : (fetchByte s).2.ip = s.ip := by
  rcases fetchByte_cases s with ⟨_, _, h⟩ | ⟨_, h⟩ <;> simp [h]

@[simp] theorem fetchByte_sp (s : State) : (fetchByte s).2.sp = s.sp := by
  rcases fetchByte_cases s with ⟨_, _, h⟩ | ⟨_, h⟩ <;> simp [h]

@[simp] theorem fetchByte_cf (s : State) : (fetchByte s).2.cf = s.cf := by
  rcases fetchByte_cases s with ⟨_, _, h⟩ | ⟨_, h⟩ <;> simp [h]

@[simp] theorem fetchByte_mem (s : State) : (fetchByte s).2.mem = s.mem := by
  rcases fetchByte_cases s with ⟨_, _, h⟩ | ⟨_, h⟩ <;> simp [h]

@[simp] theorem fetchByte_status (s : State) : (fetchByte s).2.status = s.status := by
  rcases fetchByte_cases s with ⟨_, _, h⟩ | ⟨_, h⟩ <;> simp [h]

@[simp] theorem fetchByte_params (s : State) : (fetchByte s).2.params = s.params := by
  rcases fetchByte_cases s with ⟨_, _, h⟩ | ⟨_, h⟩ <;> simp [h]

@[simp] theorem fetch_ip (s : State) : (fetch s).2.ip = s.ip + 1 := by simp [fetch]

@[simp] theorem fetch_sp (s : State) : (fetch s).2.sp = s.sp := by simp [fetch]

@[simp] theorem fetch_cf (s : State) : (fetch s).2.cf = s.cf := by simp [fetch]

@[simp] theorem fetch_mem (s : State) : (fetch s).2.mem = s.mem := by simp [fetch]

@[simp] theorem fetch_status (s : State) : (fetch s).2.status = s.status := by simp [fetch]

@[simp] theorem fetch_params (s : State) : (fetch s).2.params = s.params := by simp [fetch]

/-- Where `placeOpcode` puts a byte, the next fetch reads it. -/
theorem fetch_placeOpcode (b : Byte) (s : State) : (fetch (placeOpcode b s)).1 = b := by
  by_cases h : s.params.fetchViaBus = true ∧ s.ip = s.params.consoleAddr
  · simp [placeOpcode, h, fetch, fetchByte, memRead, consoleRead]
  · rcases fetchByte_cases (placeOpcode b s) with ⟨hv, hc, _⟩ | ⟨_, hf⟩
    · simp [placeOpcode, h] at hv hc; exact absurd ⟨hv, hc⟩ h
    · simp only [fetch, hf]
      simp [placeOpcode, h]

/-! ## Traps, image load, reset -/

/-- Taking a trap sets the status latch and changes nothing else. -/
theorem raiseTrap_eq (k : TrapKind) (s : State) : raiseTrap k s = s.setStatus (.trapped k) := rfl

theorem loadFrom_read_below (image : List Byte) (k : Nat) (m : Memory) (a : Byte) (hk : k + image.length ≤ 256)
    (ha : a.toNat < k) : (loadFrom k image m).read a = m.read a := by
  induction image generalizing k m with
  | nil => rfl
  | cons b rest ih =>
    simp only [List.length_cons] at hk
    rw [loadFrom, ih (k + 1) _ (by omega) (by omega), Memory.read_write_other]
    intro h
    have := congrArg BitVec.toNat h
    simp [Nat.mod_eq_of_lt (show k < 256 by omega)] at this
    omega

/-- The stores of an image load: byte `i` of the image stands at address `k + i`. -/
theorem loadFrom_read (image : List Byte) (k i : Nat) (m : Memory) (hk : k + image.length ≤ 256)
    (hi : i < image.length) : (loadFrom k image m).read (BitVec.ofNat 8 (k + i)) = image[i] := by
  induction image generalizing k i m with
  | nil => simp at hi
  | cons b rest ih =>
    simp only [List.length_cons] at hk hi
    cases i with
    | zero =>
      rw [loadFrom, loadFrom_read_below _ _ _ _ (by omega)]
      · simp
      · simp [Nat.mod_eq_of_lt (show k < 256 by omega)]
    | succ i =>
      have := ih (k + 1) i (m.write (BitVec.ofNat 8 k) b) (by omega) (by omega)
      rw [loadFrom, show k + (i + 1) = k + 1 + i by omega, this]
      rfl

/-- An image load keeps the store's canonical form. -/
theorem loadFrom_wf (image : List Byte) (k : Nat) (m : Memory) (h : m.wf = true) : (loadFrom k image m).wf = true := by
  induction image generalizing k m with
  | nil => exact h
  | cons b rest ih => exact ih _ _ (Memory.wf_write m _ b h)

/-- After an image load every address holds its byte of the image. -/
theorem State.loadImage_read (s : State) (image : Vector Byte 256) (a : Byte) :
    (s.loadImage image).mem.read a = image[a.toNat] := by
  have := loadFrom_read image.toList 0 a.toNat s.mem (by simp) (by simp [a.isLt])
  simpa [State.loadImage] using this

/-- An image load keeps the store's canonical form. -/
theorem State.loadImage_wf (s : State) (image : Vector Byte 256) (h : s.mem.wf = true) :
    (s.loadImage image).mem.wf = true := loadFrom_wf _ _ _ h

/-- The store after reset is in canonical form. -/
theorem State.reset_mem_wf : State.reset.mem.wf = true := rfl

end Sys2Proof.Machine
end

