-- ==== Sys2Proof/Laws/Frames.lean ====
section
/-! SUPPORT. What a sequence of bus writes leaves behind, and what the frames of the binary and the unary group leave
behind for any function: once for each group. -/

namespace Sys2Proof.Machine

/-! ## Sequences of bus writes -/

@[simp] theorem emissions_nil (p : Params) : emissions p [] = [] := rfl

theorem emissions_append (p : Params) (ws vs : List (Byte × Byte)) :
    emissions p (ws ++ vs) = emissions p ws ++ emissions p vs := List.filterMap_append

@[simp] theorem storedAfter_nil (p : Params) (a old : Byte) : storedAfter p [] a old = old := rfl

theorem storedAfter_append (p : Params) (ws vs : List (Byte × Byte)) (a old : Byte) :
    storedAfter p (ws ++ vs) a old = storedAfter p vs a (storedAfter p ws a old) := List.foldl_append

/-- No bus write reaches the store at the console address. -/
theorem storedAfter_console (p : Params) (ws : List (Byte × Byte)) (old : Byte) :
    storedAfter p ws p.consoleAddr old = old := by
  induction ws with
  | nil => rfl
  | cons w ws ih => simp [storedAfter]

/-- Nothing written: the registers as said, all else as it was. -/
theorem LeavesBehind.of_no_write {u t : State} (h1 : t.status = u.status) (h2 : t.params = u.params)
    (h3 : t.inq = u.inq) (h4 : t.hostIn = u.hostIn) (h5 : t.history = u.history) (h6 : t.mem = u.mem) :
    LeavesBehind u t t.ip t.sp t.cf [] :=
  ⟨rfl, rfl, rfl, h1, h2, h3, h4, by simp [h5], by simp [h6]⟩

/-- One more bus write. -/
theorem LeavesBehind.memWrite {u t : State} {ip sp : Byte} {cf : Bool} {ws : List (Byte × Byte)}
    (h : LeavesBehind u t ip sp cf ws) (a v : Byte) :
    LeavesBehind u (Sys2Proof.Machine.memWrite a v t) ip sp cf (ws ++ [(a, v)]) where
  ip_eq := by simp [h.ip_eq]
  sp_eq := by simp [h.sp_eq]
  cf_eq := by simp [h.cf_eq]
  status_eq := by simp [h.status_eq]
  params_eq := by simp [h.params_eq]
  inq_eq := by simp [h.inq_eq]
  hostIn_eq := by simp [h.hostIn_eq]
  history_eq := by
    rw [memWrite_history, h.history_eq, h.params_eq, emissions_append, List.append_assoc]
  mem_eq b := by
    rw [(memWrite_leaves a v t).mem_eq b, h.mem_eq b, h.params_eq, storedAfter_append]

/-- One more push. -/
theorem LeavesBehind.pushByte {u t : State} {ip sp : Byte} {cf : Bool} {ws : List (Byte × Byte)}
    (h : LeavesBehind u t ip sp cf ws) (v : Byte) :
    LeavesBehind u (Sys2Proof.Machine.pushByte v t) ip (sp - 1) cf (ws ++ [(sp - 1, v)]) := by
  have hs : LeavesBehind u (t.setSp (t.sp - 1)) ip (sp - 1) cf ws :=
    { h with sp_eq := by simp [h.sp_eq] }
  have hw := hs.memWrite (t.sp - 1) v
  rw [show Sys2Proof.Machine.pushByte v t = Sys2Proof.Machine.memWrite (t.sp - 1) v (t.setSp (t.sp - 1)) from rfl]
  rw [h.sp_eq] at hw ⊢
  exact hw

/-! ## The frames -/

@[simp] theorem writeFlag_ip (c : Option Bool) (s : State) : (writeFlag c s).ip = s.ip := by cases c <;> rfl
@[simp] theorem writeFlag_sp (c : Option Bool) (s : State) : (writeFlag c s).sp = s.sp := by cases c <;> rfl
@[simp] theorem writeFlag_cf (c : Option Bool) (s : State) : (writeFlag c s).cf = c.getD s.cf := by cases c <;> rfl
@[simp] theorem writeFlag_mem (c : Option Bool) (s : State) : (writeFlag c s).mem = s.mem := by cases c <;> rfl
@[simp] theorem writeFlag_inq (c : Option Bool) (s : State) : (writeFlag c s).inq = s.inq := by cases c <;> rfl
@[simp] theorem writeFlag_status (c : Option Bool) (s : State) : (writeFlag c s).status = s.status := by cases c <;> rfl
@[simp] theorem writeFlag_hostIn (c : Option Bool) (s : State) : (writeFlag c s).hostIn = s.hostIn := by cases c <;> rfl
@[simp] theorem writeFlag_history (c : Option Bool) (s : State) : (writeFlag c s).history = s.history := by cases c <;> rfl
@[simp] theorem writeFlag_params (c : Option Bool) (s : State) : (writeFlag c s).params = s.params := by cases c <;> rfl

/-- The bus reads of the binary frame made before `sp` moves are those made after: a bus read does not look at `sp`. -/
theorem memRead_setSp (a v : Byte) (s : State) :
    memRead a (s.setSp v) = ((memRead a s).1, (memRead a s).2.setSp v) := by
  by_cases h : a = s.params.consoleAddr
  · rw [memRead_console (s := s) h, memRead_console (s := s.setSp v) h]
    unfold consoleRead hostAsk
    cases hi : s.inq <;> cases hh : s.hostIn <;> simp [hi, hh] <;> rfl
  · rw [memRead_store (s := s) h, memRead_store (s := s.setSp v) h]; rfl

/-- All the binary frame does (41_binary_alu.md R110). -/
theorem binaryFrame_leaves (f : BinaryFn) (size : BitVec 2) (s : State) :
    let b := memRead s.sp s
    let addr := sizeAddr (s.sp + 1) size
    let a := memRead addr b.2
    let r := f a.1 b.1 s.cf
    (binaryFrame f size s).1 = a.1 ∧
      LeavesBehind a.2 (binaryFrame f size s).2 s.ip (s.sp + 1) (r.2.getD s.cf) [(addr, r.1)] := by
  simp only [binaryFrame, popByte_fst, popByte_snd, memRead_setSp]
  refine ⟨by simp, ?_⟩
  constructor <;> simp [memWrite_history, memWrite_read, storedAfter]

/-- All the unary frame does (42_unary_alu.md R130). -/
theorem unaryFrame_leaves (g : UnaryFn) (s : State) :
    let x := memRead s.sp s
    let r := g x.1 s.cf
    LeavesBehind x.2 (unaryFrame g s) s.ip s.sp (r.2.getD s.cf) [(s.sp, r.1)] := by
  simp only [unaryFrame, popByte_fst, popByte_snd]
  constructor <;> simp [pushByte, memWrite_history, memWrite_read, storedAfter]

end Sys2Proof.Machine
end

