-- ==== Sys2Proof/Laws/PerInstr.lean ====
section
/-! SUPPORT. The per-instruction family: under REF every instruction's encoding has the match bits of its row of
spec/opcode_table.json. -/

namespace Sys2Proof.Laws.EncodingMatchesTable

/-- The row's mask: which bits the row fixes. -/
def mask : Instr → Byte
  | .psh _ => 0x80
  | .add _ => 0xFC
  | .sub _ => 0xFC
  | .iff _ => 0xFC
  | .swp _ => 0xFC
  | .rot _ => 0xFC
  | .orr _ => 0xFC
  | .and _ => 0xFC
  | .xor _ => 0xFC
  | .xnd _ => 0xFC
  | .inc => 0xFF
  | .dec => 0xFF
  | .neg => 0xFF
  | .shl => 0xFF
  | .shr => 0xFF
  | .not => 0xFF
  | .buf => 0xFF
  | .dbg => 0xFF
  | .ldo _ => 0xF0
  | .sto _ => 0xF0
  | .lda => 0xFF
  | .sta => 0xFF
  | .ldi => 0xFF
  | .sti => 0xFF
  | .lds => 0xFF
  | .sts => 0xFF
  | .clc => 0xFF
  | .sec => 0xFF
  | .flc => 0xFF
  | .nop => 0xFF
  | .pop => 0xFF
  | .phn _ => 0xF0

/-- The row's match: the values of the bits it fixes. -/
def fixedBits : Instr → Byte
  | .psh _ => 0x00
  | .add _ => 0x80
  | .sub _ => 0x84
  | .iff _ => 0x90
  | .swp _ => 0x94
  | .rot _ => 0x98
  | .orr _ => 0xA0
  | .and _ => 0xA4
  | .xor _ => 0xA8
  | .xnd _ => 0xAC
  | .inc => 0xB0
  | .dec => 0xB1
  | .neg => 0xB2
  | .shl => 0xB3
  | .shr => 0xB4
  | .not => 0xB5
  | .buf => 0xB6
  | .dbg => 0xB7
  | .ldo _ => 0xC0
  | .sto _ => 0xD0
  | .lda => 0xE0
  | .sta => 0xE1
  | .ldi => 0xE2
  | .sti => 0xE3
  | .lds => 0xE4
  | .sts => 0xE5
  | .clc => 0xE6
  | .sec => 0xE7
  | .flc => 0xE8
  | .nop => 0xE9
  | .pop => 0xEA
  | .phn _ => 0xF0

/-- The instruction's encoding under REF has the fixed bits of its row. -/
def Statement (i : Instr) : Prop := encode refNibbles i &&& mask i = fixedBits i

end Sys2Proof.Laws.EncodingMatchesTable

theorem Sys2Proof.Laws.EncodingMatchesTable.psh (imm : BitVec 7) :
    Sys2Proof.Laws.EncodingMatchesTable.Statement (.psh imm) := by
  revert imm; unfold Statement; decide

theorem Sys2Proof.Laws.EncodingMatchesTable.add (size : BitVec 2) :
    Sys2Proof.Laws.EncodingMatchesTable.Statement (.add size) := by
  revert size; unfold Statement; decide

theorem Sys2Proof.Laws.EncodingMatchesTable.sub (size : BitVec 2) :
    Sys2Proof.Laws.EncodingMatchesTable.Statement (.sub size) := by
  revert size; unfold Statement; decide

theorem Sys2Proof.Laws.EncodingMatchesTable.iff (size : BitVec 2) :
    Sys2Proof.Laws.EncodingMatchesTable.Statement (.iff size) := by
  revert size; unfold Statement; decide

theorem Sys2Proof.Laws.EncodingMatchesTable.swp (size : BitVec 2) :
    Sys2Proof.Laws.EncodingMatchesTable.Statement (.swp size) := by
  revert size; unfold Statement; decide

theorem Sys2Proof.Laws.EncodingMatchesTable.rot (size : BitVec 2) :
    Sys2Proof.Laws.EncodingMatchesTable.Statement (.rot size) := by
  revert size; unfold Statement; decide

theorem Sys2Proof.Laws.EncodingMatchesTable.orr (size : BitVec 2) :
    Sys2Proof.Laws.EncodingMatchesTable.Statement (.orr size) := by
  revert size; unfold Statement; decide

theorem Sys2Proof.Laws.EncodingMatchesTable.and (size : BitVec 2) :
    Sys2Proof.Laws.EncodingMatchesTable.Statement (.and size) := by
  revert size; unfold Statement; decide

theorem Sys2Proof.Laws.EncodingMatchesTable.xor (size : BitVec 2) :
    Sys2Proof.Laws.EncodingMatchesTable.Statement (.xor size) := by
  revert size; unfold Statement; decide

theorem Sys2Proof.Laws.EncodingMatchesTable.xnd (size : BitVec 2) :
    Sys2Proof.Laws.EncodingMatchesTable.Statement (.xnd size) := by
  revert size; unfold Statement; decide

theorem Sys2Proof.Laws.EncodingMatchesTable.inc : Sys2Proof.Laws.EncodingMatchesTable.Statement .inc := by
  unfold Statement; decide

theorem Sys2Proof.Laws.EncodingMatchesTable.dec : Sys2Proof.Laws.EncodingMatchesTable.Statement .dec := by
  unfold Statement; decide

theorem Sys2Proof.Laws.EncodingMatchesTable.neg : Sys2Proof.Laws.EncodingMatchesTable.Statement .neg := by
  unfold Statement; decide

theorem Sys2Proof.Laws.EncodingMatchesTable.shl : Sys2Proof.Laws.EncodingMatchesTable.Statement .shl := by
  unfold Statement; decide

theorem Sys2Proof.Laws.EncodingMatchesTable.shr : Sys2Proof.Laws.EncodingMatchesTable.Statement .shr := by
  unfold Statement; decide

theorem Sys2Proof.Laws.EncodingMatchesTable.not : Sys2Proof.Laws.EncodingMatchesTable.Statement .not := by
  unfold Statement; decide

theorem Sys2Proof.Laws.EncodingMatchesTable.buf : Sys2Proof.Laws.EncodingMatchesTable.Statement .buf := by
  unfold Statement; decide

theorem Sys2Proof.Laws.EncodingMatchesTable.dbg : Sys2Proof.Laws.EncodingMatchesTable.Statement .dbg := by
  unfold Statement; decide

theorem Sys2Proof.Laws.EncodingMatchesTable.ldo (offset : Sys2Proof.Nibble) :
    Sys2Proof.Laws.EncodingMatchesTable.Statement (.ldo offset) := by
  revert offset; unfold Statement; decide

theorem Sys2Proof.Laws.EncodingMatchesTable.sto (offset : Sys2Proof.Nibble) :
    Sys2Proof.Laws.EncodingMatchesTable.Statement (.sto offset) := by
  revert offset; unfold Statement; decide

theorem Sys2Proof.Laws.EncodingMatchesTable.lda : Sys2Proof.Laws.EncodingMatchesTable.Statement .lda := by
  unfold Statement; decide

theorem Sys2Proof.Laws.EncodingMatchesTable.sta : Sys2Proof.Laws.EncodingMatchesTable.Statement .sta := by
  unfold Statement; decide

theorem Sys2Proof.Laws.EncodingMatchesTable.ldi : Sys2Proof.Laws.EncodingMatchesTable.Statement .ldi := by
  unfold Statement; decide

theorem Sys2Proof.Laws.EncodingMatchesTable.sti : Sys2Proof.Laws.EncodingMatchesTable.Statement .sti := by
  unfold Statement; decide

theorem Sys2Proof.Laws.EncodingMatchesTable.lds : Sys2Proof.Laws.EncodingMatchesTable.Statement .lds := by
  unfold Statement; decide

theorem Sys2Proof.Laws.EncodingMatchesTable.sts : Sys2Proof.Laws.EncodingMatchesTable.Statement .sts := by
  unfold Statement; decide

theorem Sys2Proof.Laws.EncodingMatchesTable.clc : Sys2Proof.Laws.EncodingMatchesTable.Statement .clc := by
  unfold Statement; decide

theorem Sys2Proof.Laws.EncodingMatchesTable.sec : Sys2Proof.Laws.EncodingMatchesTable.Statement .sec := by
  unfold Statement; decide

theorem Sys2Proof.Laws.EncodingMatchesTable.flc : Sys2Proof.Laws.EncodingMatchesTable.Statement .flc := by
  unfold Statement; decide

theorem Sys2Proof.Laws.EncodingMatchesTable.nop : Sys2Proof.Laws.EncodingMatchesTable.Statement .nop := by
  unfold Statement; decide

theorem Sys2Proof.Laws.EncodingMatchesTable.pop : Sys2Proof.Laws.EncodingMatchesTable.Statement .pop := by
  unfold Statement; decide

theorem Sys2Proof.Laws.EncodingMatchesTable.phn (n : Sys2Proof.Nibble) :
    Sys2Proof.Laws.EncodingMatchesTable.Statement (.phn n) := by
  revert n; unfold Statement; decide
end

