-- ==== Sys2Proof/Laws/Step.lean ====
section
/-! SUPPORT. What a step can do, said once. -/

namespace Sys2Proof.Machine

/-- A step that answers a next state was taken by a running machine, and either ran the instruction the fetched byte
decodes to, or took IllegalOpcode on an Illegal byte (30_encoding.md R72). -/
theorem step_cases {s t : State} (h : step s = .next t) :
    s.status = .running ∧
      ((∃ i, decode s.params.nibbles (fetch s).1 = .instr i ∧ exec i (fetch s).2 = .next t) ∨
        ∃ why, decode s.params.nibbles (fetch s).1 = .illegal why ∧ t = raiseTrap .illegalOpcode (fetch s).2) := by
  cases hs : s.status with
  | trapped k => simp [step, hs] at h
  | running =>
    simp only [step, hs, fetch_params] at h
    cases hd : decode s.params.nibbles (fetch s).1 with
    | instr i => exact ⟨rfl, .inl ⟨i, rfl, by simpa [hd] using h⟩⟩
    | illegal why => exact ⟨rfl, .inr ⟨why, rfl, by simpa [hd, eq_comm] using h⟩⟩

/-- `withFetchWord` places an opcode byte so that the next fetch reads it. -/
theorem fetch_withFetchWord (s : State) (nbits w : Nat) : (fetch (s.withFetchWord nbits w)).1 = firstByte nbits w :=
  fetch_placeOpcode _ _

end Sys2Proof.Machine
end

