-- ==== Sys2Proof/Tests/Slice0.lean ====
section
/-! SUPPORT. The model's own tests: one opcode word per instruction written out from 30_encoding.md, an ill-formed term for
each check, vectors of 95_test_vectors.md (each on one step), and a witness for every statement with hypotheses. -/

namespace Sys2Proof.Tests

open Sys2Proof.Machine

/-! ## Decoding: the word is written out bit by bit from the encoding of the instruction's rule -/

theorem test_decode_psh : decodeTableWord 8 0b00000101 = some (.psh 5) := by decide
theorem test_decode_add : decodeTableWord 8 0b10000001 = some (.add 1) := by decide
theorem test_decode_sub : decodeTableWord 8 0b10000110 = some (.sub 2) := by decide
theorem test_decode_iff : decodeTableWord 8 0b10010000 = some (.iff 0) := by decide
theorem test_decode_swp : decodeTableWord 8 0b10010110 = some (.swp 2) := by decide
theorem test_decode_rot : decodeTableWord 8 0b10011011 = some (.rot 3) := by decide
theorem test_decode_orr : decodeTableWord 8 0b10100000 = some (.orr 0) := by decide
theorem test_decode_and : decodeTableWord 8 0b10100101 = some (.and 1) := by decide
theorem test_decode_xor : decodeTableWord 8 0b10101010 = some (.xor 2) := by decide
theorem test_decode_xnd : decodeTableWord 8 0b10101101 = some (.xnd 1) := by decide
theorem test_decode_inc : decodeTableWord 8 0b10110000 = some (.inc) := by decide
theorem test_decode_dec : decodeTableWord 8 0b10110001 = some (.dec) := by decide
theorem test_decode_neg : decodeTableWord 8 0b10110010 = some (.neg) := by decide
theorem test_decode_shl : decodeTableWord 8 0b10110011 = some (.shl) := by decide
theorem test_decode_shr : decodeTableWord 8 0b10110100 = some (.shr) := by decide
theorem test_decode_not : decodeTableWord 8 0b10110101 = some (.not) := by decide
theorem test_decode_buf : decodeTableWord 8 0b10110110 = some (.buf) := by decide
theorem test_decode_dbg : decodeTableWord 8 0b10110111 = some (.dbg) := by decide
theorem test_decode_ldo : decodeTableWord 8 0b11001010 = some (.ldo 10) := by decide
theorem test_decode_sto : decodeTableWord 8 0b11010001 = some (.sto 1) := by decide
theorem test_decode_lda : decodeTableWord 8 0b11100000 = some (.lda) := by decide
theorem test_decode_sta : decodeTableWord 8 0b11100001 = some (.sta) := by decide
theorem test_decode_ldi : decodeTableWord 8 0b11100010 = some (.ldi) := by decide
theorem test_decode_sti : decodeTableWord 8 0b11100011 = some (.sti) := by decide
theorem test_decode_lds : decodeTableWord 8 0b11100100 = some (.lds) := by decide
theorem test_decode_sts : decodeTableWord 8 0b11100101 = some (.sts) := by decide
theorem test_decode_clc : decodeTableWord 8 0b11100110 = some (.clc) := by decide
theorem test_decode_sec : decodeTableWord 8 0b11100111 = some (.sec) := by decide
theorem test_decode_flc : decodeTableWord 8 0b11101000 = some (.flc) := by decide
theorem test_decode_nop : decodeTableWord 8 0b11101001 = some (.nop) := by decide
theorem test_decode_pop : decodeTableWord 8 0b11101010 = some (.pop) := by decide
theorem test_decode_phn : decodeTableWord 8 0b11110011 = some (.phn 3) := by decide

theorem test_decode_unassigned_unary : decode refNibbles 0x88 = .illegal (.unassignedUnaryNibble 8) := by decide

theorem test_decode_unassigned_reg : decode refNibbles 0xEF = .illegal (.unassignedRegNibble 15) := by decide

/-! ## An ill-formed term for each check -/

theorem test_wf_ref : refNibbles.wf = true := by decide

/-- two unary operations share a nibble -/
theorem test_illformed_unary : UnaryNibble.wf { refUnaryNibble with dec := 0 } = false := by decide

/-- two register/flag operations share a nibble -/
theorem test_illformed_reg : RegNibble.wf { refRegNibble with pop := 9 } = false := by decide

/-- the two maps together are refused for either one's fault -/
theorem test_illformed_maps : NibbleMaps.wf { refNibbles with unary := { refUnaryNibble with dbg := 6 } } = false ∧
    NibbleMaps.wf { refNibbles with reg := { refRegNibble with sta := 0 } } = false := by decide

theorem test_illformed_literal : Written.wf ⟨.psh, some 128⟩ = false ∧ Written.wf ⟨.psh, some (-1)⟩ = false ∧
    Written.wf ⟨.psh, none⟩ = false ∧ Written.wf ⟨.psh, some 127⟩ = true := by decide

theorem test_illformed_negative : Written.wf ⟨.phn, some 0⟩ = false ∧ Written.wf ⟨.phn, some (-17)⟩ = false ∧
    Written.wf ⟨.phn, some 0xEF⟩ = false ∧ Written.wf ⟨.phn, none⟩ = false ∧ Written.wf ⟨.phn, some (-16)⟩ = true := by decide

theorem test_illformed_size : Written.wf ⟨.add, some 4⟩ = false ∧ Written.wf ⟨.add, some (-1)⟩ = false ∧
    Written.wf ⟨.add, none⟩ = true := by decide

theorem test_illformed_offset : Written.wf ⟨.ldo, some 16⟩ = false ∧ Written.wf ⟨.sto, none⟩ = false ∧
    Written.wf ⟨.sto, some 15⟩ = true := by decide

theorem test_illformed_no_operand : Written.wf ⟨.inc, some 0⟩ = false ∧ Written.wf ⟨.inc, none⟩ = true := by decide

/-- cells out of order, twice the same address, a cell of the unlisted byte, an address above 255 -/
theorem test_illformed_memory : Memory.wf [(5, 1), (3, 1)] = false ∧ Memory.wf [(3, 1), (3, 2)] = false ∧
    Memory.wf [(3, 0)] = false ∧ Memory.wf [(256, 1)] = false ∧ Memory.wf [(0, 1), (255, 1)] = true := by decide

theorem test_illformed_state : State.wf { State.reset with mem := [(3, 0)] } = false := by decide

/-! ## Vectors of 95_test_vectors.md: one step, fetched at 0x10 unless said, under REF -/

/-- The next state of an outcome, if there is one. -/
def after : Host.Outcome State Fault Refusal → Option State
  | .next t => some t
  | .fault _ => none
  | .refused _ => none

/-- A machine of the vectors' conventions: the next fetch at 0x10, nothing pushed back, the host exhausted. -/
def machine (con sp : Byte) (cf : Bool) (mem : Memory) : State :=
  { State.reset with
    ip := 0x10, sp := sp, cf := cf, mem := mem, inq := [], hostIn := [.exhausted]
    params := { referenceParams with consoleAddr := con } }

/-- `sp`, `cf` and one byte of the store after the step that runs the byte `op`. -/
def seen (op : Nat) (s : State) (a : Byte) : Option (Byte × Bool × Byte) :=
  (after (step (s.withFetchWord 8 op))).map (fun t => (t.sp, t.cf, t.mem.read a))

/-- V-PSH-3 -/
theorem test_psh_wraps : seen 0x05 (machine 0x80 0x00 false []) 0xFF =
    some (0xFF, false, 0x05) := by decide

/-- V-SRC-1 -/
theorem test_add_carry : seen 0x80 (machine 0x80 0xFE false [(0xFE, 0x01), (0xFF, 0xFF)]) 0xFF =
    some (0xFF, true, 0x00) := by decide

/-- V-ADD-6 -/
theorem test_add_wraps : seen 0x81 (machine 0x80 0xFF false [(0x01, 0x40), (0xFF, 0x02)]) 0x01 =
    some (0x00, false, 0x42) := by decide

/-- V-SRC-2 -/
theorem test_sub_borrow : seen 0x84 (machine 0x80 0xFE false [(0xFE, 0x01)]) 0xFF =
    some (0xFF, true, 0xFF) := by decide

/-- V-SUB-4 -/
theorem test_sub_borrow_in : seen 0x84 (machine 0x80 0xFE true [(0xFE, 0xFF)]) 0xFF =
    some (0xFF, true, 0x00) := by decide

/-- V-IFF-1 -/
theorem test_iff_clear : seen 0x90 (machine 0x80 0xFE false [(0xFE, 0x22), (0xFF, 0x11)]) 0xFF =
    some (0xFF, false, 0x11) := by decide

/-- V-IFF-2 -/
theorem test_iff_set : seen 0x90 (machine 0x80 0xFE true [(0xFE, 0x22), (0xFF, 0x11)]) 0xFF =
    some (0xFF, true, 0x22) := by decide

/-- V-SWP-2, the slot under the top of stack -/
theorem test_swp_deep : seen 0x96 (machine 0x80 0xFC false [(0xFC, 0xDD), (0xFD, 0xCC), (0xFE, 0xBB), (0xFF, 0xAA)]) 0xFF =
    some (0xFC, false, 0xDD) := by decide

/-- V-SWP-2, the top of stack -/
theorem test_swp_deep_top : seen 0x96 (machine 0x80 0xFC false [(0xFC, 0xDD), (0xFD, 0xCC), (0xFE, 0xBB), (0xFF, 0xAA)]) 0xFC =
    some (0xFC, false, 0xAA) := by decide

/-- V-SRC-3 -/
theorem test_rot : seen 0x98 (machine 0x80 0xFE true [(0xFE, 0x01), (0xFF, 0x81)]) 0xFF =
    some (0xFF, false, 0x03) := by decide

/-- V-ROT-3 -/
theorem test_rot_by_four : seen 0x98 (machine 0x80 0xFE true [(0xFE, 0x04), (0xFF, 0x96)]) 0xFF =
    some (0xFF, false, 0x69) := by decide

/-- V-ORR-1 -/
theorem test_orr : seen 0xA0 (machine 0x80 0xFE true [(0xFE, 0xF0), (0xFF, 0x0F)]) 0xFF =
    some (0xFF, false, 0xFF) := by decide

/-- V-ORR-2 -/
theorem test_orr_zero : seen 0xA0 (machine 0x80 0xFE false []) 0xFF =
    some (0xFF, true, 0x00) := by decide

/-- V-AND-1 -/
theorem test_and_zero : seen 0xA4 (machine 0x80 0xFE false [(0xFE, 0xF0), (0xFF, 0x0F)]) 0xFF =
    some (0xFF, true, 0x00) := by decide

/-- V-AND-2 -/
theorem test_and : seen 0xA4 (machine 0x80 0xFE true [(0xFE, 0x3C), (0xFF, 0xFF)]) 0xFF =
    some (0xFF, false, 0x3C) := by decide

/-- V-XOR-1 -/
theorem test_xor_equal : seen 0xA8 (machine 0x80 0xFE false [(0xFE, 0x5A), (0xFF, 0x5A)]) 0xFF =
    some (0xFF, true, 0x00) := by decide

/-- V-XOR-2 -/
theorem test_xor : seen 0xA8 (machine 0x80 0xFE true [(0xFE, 0xA5), (0xFF, 0x5A)]) 0xFF =
    some (0xFF, false, 0xFF) := by decide

/-- V-XND-2 -/
theorem test_xnd : seen 0xAD (machine 0x80 0xFD false [(0xFD, 0x99), (0xFE, 0x88), (0xFF, 0x77)]) 0xFF =
    some (0xFE, true, 0x00) := by decide

/-- V-INC-1 -/
theorem test_inc : seen 0xB0 (machine 0x80 0xFF true [(0xFF, 0x41)]) 0xFF =
    some (0xFF, true, 0x42) := by decide

/-- V-INC-2 -/
theorem test_inc_wraps : seen 0xB0 (machine 0x80 0xFF false [(0xFF, 0xFF)]) 0xFF =
    some (0xFF, false, 0x00) := by decide

/-- V-DEC-1 -/
theorem test_dec_wraps : seen 0xB1 (machine 0x80 0xFF true []) 0xFF =
    some (0xFF, true, 0xFF) := by decide

/-- V-NEG-1 -/
theorem test_neg : seen 0xB2 (machine 0x80 0xFF false [(0xFF, 0x01)]) 0xFF =
    some (0xFF, false, 0xFF) := by decide

/-- V-NEG-3 -/
theorem test_neg_least : seen 0xB2 (machine 0x80 0xFF false [(0xFF, 0x80)]) 0xFF =
    some (0xFF, false, 0x80) := by decide

/-- V-SHL-1 -/
theorem test_shl : seen 0xB3 (machine 0x80 0xFF false [(0xFF, 0x81)]) 0xFF =
    some (0xFF, true, 0x02) := by decide

/-- V-SHL-3 -/
theorem test_shl_carry_in : seen 0xB3 (machine 0x80 0xFF true [(0xFF, 0x40)]) 0xFF =
    some (0xFF, false, 0x81) := by decide

/-- V-SHR-1 -/
theorem test_shr : seen 0xB4 (machine 0x80 0xFF false [(0xFF, 0x81)]) 0xFF =
    some (0xFF, true, 0x40) := by decide

/-- V-SHR-2 -/
theorem test_shr_carry_in : seen 0xB4 (machine 0x80 0xFF true [(0xFF, 0x81)]) 0xFF =
    some (0xFF, true, 0xC0) := by decide

/-- V-NOT-1 -/
theorem test_not_zero : seen 0xB5 (machine 0x80 0xFF false [(0xFF, 0xFF)]) 0xFF =
    some (0xFF, true, 0x00) := by decide

/-- V-NOT-2 -/
theorem test_not : seen 0xB5 (machine 0x80 0xFF true [(0xFF, 0x0F)]) 0xFF =
    some (0xFF, false, 0xF0) := by decide

/-- V-BUF-1 -/
theorem test_buf_zero : seen 0xB6 (machine 0x80 0xFF false []) 0xFF =
    some (0xFF, true, 0x00) := by decide

/-- V-BUF-2 -/
theorem test_buf : seen 0xB6 (machine 0x80 0xFF true [(0xFF, 0x7E)]) 0xFF =
    some (0xFF, false, 0x7E) := by decide

/-- V-LDO-2 -/
theorem test_ldo_second : seen 0xC1 (machine 0x80 0xFE false [(0xFE, 0x22), (0xFF, 0x11)]) 0xFD =
    some (0xFD, false, 0x11) := by decide

/-- V-LDO-3 -/
theorem test_ldo_wraps : seen 0xC3 (machine 0x80 0xFD false [(0x00, 0x5E), (0xFD, 0x01), (0xFE, 0x02), (0xFF, 0x03)]) 0xFC =
    some (0xFC, false, 0x5E) := by decide

/-- V-STO-2 -/
theorem test_sto : seen 0xD1 (machine 0x80 0xFD false [(0xFD, 0x33), (0xFE, 0x22), (0xFF, 0x11)]) 0xFF =
    some (0xFE, false, 0x33) := by decide

/-- V-STO-3 -/
theorem test_sto_wraps : seen 0xD0 (machine 0x80 0xFF false [(0xFF, 0x77)]) 0x00 =
    some (0x00, false, 0x77) := by decide

/-- V-LDA-1 -/
theorem test_lda : seen 0xE0 (machine 0x80 0xFF false [(0x40, 0x99), (0xFF, 0x40)]) 0xFF =
    some (0xFF, false, 0x99) := by decide

/-- V-STA-1 -/
theorem test_sta : seen 0xE1 (machine 0x80 0xFE false [(0xFE, 0x40), (0xFF, 0x55)]) 0x40 =
    some (0x00, false, 0x55) := by decide

/-- V-LDI-1 -/
theorem test_ldi : seen 0xE2 (machine 0x80 0x00 false []) 0xFF =
    some (0xFF, false, 0x11) := by decide

/-- V-LDS-2 -/
theorem test_lds : seen 0xE4 (machine 0x80 0xFE false [(0xFE, 0xBB), (0xFF, 0xAA)]) 0xFD =
    some (0xFD, false, 0xFE) := by decide

/-- V-STS-1 -/
theorem test_sts : seen 0xE5 (machine 0x80 0xFF false [(0xFF, 0x80)]) 0xFF =
    some (0x80, false, 0x80) := by decide

/-- V-CLC-1 -/
theorem test_clc : seen 0xE6 (machine 0x80 0x00 true []) 0xFF =
    some (0x00, false, 0x00) := by decide

/-- V-SEC-1 -/
theorem test_sec : seen 0xE7 (machine 0x80 0x00 false []) 0xFF =
    some (0x00, true, 0x00) := by decide

/-- V-FLC-1 -/
theorem test_flc : seen 0xE8 (machine 0x80 0x00 true []) 0xFF =
    some (0x00, false, 0x00) := by decide

/-- V-POP-2 -/
theorem test_pop : seen 0xEA (machine 0x80 0x00 false []) 0xFF =
    some (0x01, false, 0x00) := by decide

/-- V-PHN-4 -/
theorem test_phn : seen 0xF3 (machine 0x80 0x00 false []) 0xFF =
    some (0xFF, false, 0xF3) := by decide

/-- V-STI-1 -/
theorem test_sti : (after (step ((machine 0x80 0xFF false [(0xFF, 0x42)]).withFetchWord 8 0xE3))).map
    (fun t => (t.ip, t.sp)) = some (0x42, 0x00) := by decide

/-- V-NOP-1 -/
theorem test_nop : after (step ((machine 0x80 0x00 true []).withFetchWord 8 0xE9)) =
    some { (machine 0x80 0x00 true []).withFetchWord 8 0xE9 with ip := 0x11 } := by decide

/-- V-DBG-2: no console access, so the host's byte is still unread -/
theorem test_dbg : (after (step ({ machine 0xFF 0xFF true [] with hostIn := [.byte 0x51] }.withFetchWord 8 0xB7))).map
    (fun t => (t.status, t.ip, t.sp, t.cf, t.hostIn)) =
    some (.trapped .debugRequest, 0x11, 0xFF, true, [.byte 0x51]) := by decide

/-- V-UIL-1 and V-RIL-1 -/
theorem test_illegal : [0x88, 0xEB].map (fun op =>
    (after (step ((machine 0x80 0xFF true [(0xFF, 0x33)]).withFetchWord 8 op))).map
      (fun t => (t.status, t.ip, t.sp, t.cf, t.mem.read 0xFF))) =
    [some (.trapped .illegalOpcode, 0x11, 0xFF, true, 0x33), some (.trapped .illegalOpcode, 0x11, 0xFF, true, 0x33)] := by
  decide

/-- V-POP-3: `pop` at the console address reads nothing -/
theorem test_pop_console : (after (step ({ machine 0xFF 0xFF false [] with hostIn := [.byte 0x51] }.withFetchWord 8 0xEA))).map
    (fun t => (t.sp, t.hostIn, t.history)) = some (0x00, [.byte 0x51], []) := by decide

/-! ## Console vectors -/

/-- V-PSH-4: the store is not written -/
theorem test_psh_console : (after (step ((machine 0xFF 0x00 false []).withFetchWord 8 0x05))).map
    (fun t => (t.mem.read 0xFF, t.hostOutput)) = some (0x00, [0x05]) := by decide

/-- V-BIN-K1 -/
theorem test_add_console :
    (after (step ({ machine 0xFF 0xFE false [(0xFE, 0x03), (0xFF, 0x05)] with hostIn := [.byte 0x20] }.withFetchWord 8 0x80))).map
      (fun t => (t.sp, t.cf, t.mem.read 0xFF, t.history)) =
    some (0xFF, false, 0x05, [.asked (.byte 0x20), .emitted 0x23]) := by decide

/-- V-BIN-K2 -/
theorem test_swp_console :
    (after (step ({ machine 0xFE 0xFE false [(0xFE, 0x22), (0xFF, 0x11)] with hostIn := [.byte 0x77] }.withFetchWord 8 0x94))).map
      (fun t => (t.sp, t.mem.read 0xFF, t.mem.read 0xFE, t.history)) =
    some (0xFE, 0x77, 0x22, [.asked (.byte 0x77), .emitted 0x11]) := by decide

/-- V-UN-K1 -/
theorem test_inc_console :
    (after (step ({ machine 0xFF 0xFF false [(0xFF, 0x10)] with hostIn := [.byte 0x41] }.withFetchWord 8 0xB0))).map
      (fun t => (t.sp, t.mem.read 0xFF, t.hostOutput)) = some (0xFF, 0x10, [0x42]) := by decide

/-- V-SRC-4: the seed first, then the exhausted host's 0x00 -/
theorem test_console_seed_then_exhausted :
    (consoleRead { machine 0x7F 0 false [] with inq := [0x41] }).1 = 0x41 ∧ (consoleRead (machine 0x7F 0 false [])).1 = 0x00 ∧
      (consoleRead { machine 0x7F 0 false [] with inq := [0x41] }).2.inq = [] := by decide

/-- Program P6's first step: with `FETCH_VIA_BUS` a fetch at the console address takes the seed, without it the store's byte -/
theorem test_fetch_parameter :
    (fetch { machine 0x00 0 false [(0, 0x07)] with ip := 0x00, inq := [0x09] }).1 = 0x09 ∧
      (fetch { machine 0x00 0 false [(0, 0x07)] with
        ip := 0x00, inq := [0x09], params := { referenceParams with consoleAddr := 0x00, fetchViaBus := false } }).1 = 0x07 := by
  decide

/-- V-RST-3 -/
theorem test_reset_after_trap :
    (State.doReset { machine 0x80 0x33 true [(0x80, 0x41)] with status := .trapped .illegalOpcode }) =
      { machine 0x80 0x00 false [(0x80, 0x41)] with ip := 0x00, inq := [0x41] } := by decide

/-- `withFetchWord` at the reset state: the step runs the byte placed. -/
theorem test_withFetchWord_reset : (after (step (State.reset.withFetchWord 8 0xE7))).map (fun t => (t.ip, t.cf)) =
    some (0x01, true) := by decide

/-! ## Witnesses: a concrete state and operands that meet a statement's hypotheses together -/

/-- A machine about to run `op`, fetched from the store. -/
def about (op : Byte) : State := machine 0x80 0xF0 false [(0x10, op)]

theorem witness_StepKeepsWellFormed : (about 0x05).wf = true ∧ (after (step (about 0x05))).isSome = true := by decide

theorem witness_StepKeepsConsoleCellAndParameters : (after (step (about 0xE1))).isSome = true := by decide

/-- the step of `about 0xE1` with the console under the stack, so that its traffic is not empty -/
theorem witness_StepMovesConsoleStreamsInOrder :
    (after (step { about 0xE1 with sp := 0x80, inq := [0x80] })).map (fun t => t.history) =
      some [.pushedBack 0x80, .emitted 0x00] := by decide

theorem witness_StepRunsDecodedInstruction : (about 0xE9).status = .running ∧
    decode (about 0xE9).params.nibbles (fetch (about 0xE9)).1 = .instr .nop ∧
    (about 0xE9).ip ≠ (about 0xE9).params.consoleAddr := by decide

/-- the clause of a fetch from the console -/
theorem witness_StepRunsDecodedInstruction_console :
    let s := { about 0xE9 with ip := 0x80, inq := [0xE9] }
    s.status = .running ∧ decode s.params.nibbles (fetch s).1 = .instr .nop ∧ s.params.fetchViaBus = true ∧
      s.ip = s.params.consoleAddr := by decide

/-- the clause of a fetch straight from the store at the console address -/
theorem witness_StepRunsDecodedInstruction_store :
    let s := { machine 0x10 0 false [(0x10, 0xE9)] with params := { referenceParams with consoleAddr := 0x10, fetchViaBus := false } }
    s.status = .running ∧ decode s.params.nibbles (fetch s).1 = .instr .nop ∧ s.params.fetchViaBus = false := by decide

theorem witness_RunningStepAlwaysAnswersNext : { about 0xE9 with ip := 0xFF }.status = .running ∧
    { about 0xE9 with ip := 0xFF }.ip = 0xFF ∧ (after (exec .sti (about 0xE3))).map State.status = some .running := by decide

theorem witness_TrappedMachineTakesNoStep :
    { about 0 with status := .trapped .illegalOpcode }.status = .trapped .illegalOpcode ∧
      { about 0 with status := .trapped .debugRequest }.status = .trapped .debugRequest := by decide

/-- the unary clause, at both ends of its region's ranges -/
theorem witness_IllegalByteTrapsAfterFetch_unary : ∀ op ∈ ([0x88, 0x8F, 0x9C, 0x9F, 0xB8, 0xBF] : List Byte),
    (about op).status = .running ∧ unaryRegion (fetch (about op)).1 = true ∧
      ∀ u ∈ UnaryOp.all, (about op).params.nibbles.unary.of u ≠ (fetch (about op)).1.setWidth 4 := by decide

/-- the register/flag clause, at both ends -/
theorem witness_IllegalByteTrapsAfterFetch_reg : ∀ op ∈ ([0xEB, 0xEF] : List Byte),
    (about op).status = .running ∧ (fetch (about op)).1.toNat / 16 = 14 ∧
      ∀ r ∈ RegOp.all, (about op).params.nibbles.reg.of r ≠ (fetch (about op)).1.setWidth 4 := by decide

theorem witness_TrapsComeOnlyFromIllegalBytesAndDbg : (after (step (about 0xB7))).map State.trap = some (some .debugRequest) ∧
    (after (step (about 0x88))).map State.trap = some (some .illegalOpcode) ∧
    (after (step (about 0xE9))).map State.trap = some none := by decide

theorem witness_TrapsArePrecise : (after (step (about 0xB7))).map State.status = some (.trapped .debugRequest) ∧
    (after (step (about 0xBF))).map State.status = some (.trapped .illegalOpcode) := by decide

theorem witness_CarryFlagTable : (after (exec (.add 1) (about 0))).isSome = true ∧ readsCarry (.psh 0) = false ∧
    readsCarry .nop = false ∧ (after (step (about 0xB7))).map State.trap = some (some .debugRequest) := by decide

theorem witness_StackPointerTable : (after (exec .sta (about 0))).isSome = true := by decide

theorem witness_BusReadInterceptsConsole : (0x80 : Byte) = (about 0).params.consoleAddr ∧
    (0x7F : Byte) ≠ (about 0).params.consoleAddr ∧ (0x81 : Byte) ≠ (about 0).params.consoleAddr := by decide

theorem witness_BusWriteInterceptsConsole : (0x80 : Byte) = (about 0).params.consoleAddr ∧
    (0x00 : Byte) ≠ (about 0).params.consoleAddr ∧ (0xFF : Byte) ≠ (about 0).params.consoleAddr := by decide

theorem witness_ConsoleReadTakesPushbackThenHost : { about 0 with inq := [7] }.inq = [7] ∧ (about 0).inq = [] ∧
    (about 0).hostIn = [.exhausted] ∧ State.inq { about 0 with hostIn := [] } = [] ∧
    State.hostIn { about 0 with hostIn := [] } = [] := by decide

theorem witness_PushAndPopGoThroughTheBus : { about 0 with sp := 0x00 }.sp = 0x00 ∧ { about 0 with sp := 0xFF }.sp = 0xFF ∧
    { about 0 with sp := 0x80 }.sp = (about 0).params.consoleAddr ∧
    { about 0 with sp := 0x81 }.sp - 1 = (about 0).params.consoleAddr := by decide

theorem witness_FetchSeesTheLatestStore : (0x20 : Byte) ≠ (about 0).params.consoleAddr ∧ (0x80 : Byte) ≠ 0x20 ∧
    (0x21 : Byte) ≠ 0x20 := by decide

/-- two machines that differ in the cell under the console address, with either clause of the second hypothesis -/
theorem witness_ConsoleCellIsHidden :
    SameButConsoleCell (about 0xE9) ((about 0xE9).setMem ((about 0xE9).mem.write 0x80 0x55)) ∧
      (about 0xE9) ≠ (about 0xE9).setMem ((about 0xE9).mem.write 0x80 0x55) ∧
      (about 0xE9).params.fetchViaBus = true ∧ (about 0xE9).ip ≠ (about 0xE9).params.consoleAddr :=
  ⟨⟨rfl, rfl, rfl, rfl, rfl, rfl, rfl, rfl, by decide⟩, by decide, by decide, by decide⟩

theorem witness_DecodeOfEncode : refNibbles.wf = true := by decide

/-- both cases: the encoder's own byte, and an alias of it -/
theorem witness_EncodeOfDecodeUpToUnaryAlias : decode refNibbles 0xB0 = .instr .inc ∧
    decode { refNibbles with unary := { refUnaryNibble with inc := 0xC } } 0x8C = .instr .inc := by decide

theorem witness_DecodePshHalfAndPhnRow : (0x7F : Byte)[7] = false ∧ (0x80 : Byte)[7] = true ∧
    (0xF0 : Byte).toNat / 16 = 15 ∧ (0xFF : Byte).toNat / 16 = 15 := by decide

/-- the three aliases of the nibble 0xC -/
theorem witness_UnaryAliasesDecodeAlike :
    let m := { refNibbles with unary := { refUnaryNibble with inc := 0xC } }
    m.wf = true ∧ ∀ op ∈ ([0x8C, 0x9C, 0xBC] : List Byte), unaryRegion op = true ∧ op.setWidth 4 = m.unary.of .inc := by decide

/-- a nibble an operation takes, under a map that is not REF, and one none takes -/
theorem witness_RegNibbleSelectsTheOperation :
    let m := { refNibbles with reg := { refRegNibble with nop := 0xF } }
    m.wf = true ∧ m.reg.of .nop = 0xF ∧ decode m 0xEF = .instr .nop ∧ (∀ r ∈ RegOp.all, m.reg.of r ≠ 0x9) ∧
      decode m 0xE9 = .illegal (.unassignedRegNibble 0x9) := by decide

/-- the ends of every range, on both sides of each -/
theorem witness_WrittenFormsAssemble :
    Written.assemble ⟨.psh, some 0⟩ = some (.psh 0) ∧ Written.assemble ⟨.psh, some 127⟩ = some (.psh 127) ∧
      Written.assemble ⟨.psh, some 128⟩ = none ∧ Written.assemble ⟨.phn, some (-16)⟩ = some (.phn 0) ∧
      Written.assemble ⟨.phn, some (-1)⟩ = some (.phn 15) ∧ Written.assemble ⟨.phn, some 0⟩ = none ∧
      Written.assemble ⟨.phn, some 0xF0⟩ = some (.phn 0) ∧ Written.assemble ⟨.phn, some 0x100⟩ = none ∧
      Written.assemble ⟨.add, some 3⟩ = some (.add 3) ∧ Written.assemble ⟨.add, some 4⟩ = none ∧
      Written.assemble ⟨.sto, some 15⟩ = some (.sto 15) ∧ Written.assemble ⟨.sto, some 16⟩ = none ∧
      Written.assemble ⟨.inc, none⟩ = some .inc ∧ Written.assemble ⟨.pop, none⟩ = some .pop ∧
      Written.assemble ⟨.inc, some 0⟩ = none ∧ Written.assemble ⟨.pop, some 0⟩ = none ∧
      Written.assemble ⟨.psh, none⟩ = none := by decide

/-- at both ends of the range of `n` -/
theorem witness_MultiByteChains : ∀ n ∈ [1, 4], 1 ≤ n ∧ n ≤ 4 ∧
    ∀ k < 2 * n, (about 0).sp + BitVec.ofNat 8 k ≠ (about 0).params.consoleAddr := by decide

theorem witness_LdaReplacesTheTopByTheByteItPointsAt :
    let s := machine 0x80 0x40 false [(0x40, 0x40)]
    s.sp ≠ s.params.consoleAddr ∧ (memRead s.sp s).1 = s.sp := by decide

theorem witness_LdiPushesTheNextAddress : (about 0xE2).status = .running ∧
    decode (about 0xE2).params.nibbles (fetch (about 0xE2)).1 = .instr .ldi ∧
    (about 0xE2).sp - 1 ≠ (about 0xE2).params.consoleAddr := by decide

theorem witness_StiJumpsAndNothingElseDoes : Instr.nop ≠ .sti ∧ (after (exec .nop (about 0))).isSome = true := by decide

end Sys2Proof.Tests
end

/-! The bus, the console and the stack (20_memory.md): a console read does not look at the store (R42, R44), and the stack
primitives are bus accesses at the right address (R47, R48). -/

namespace Sys2Proof.Machine

/-! ## Console reads do not look at the store -/

/-- Asking the host commutes with replacing the store. -/
theorem hostAsk_setMem (s : State) (m : Memory) :
    hostAsk (s.setMem m) = ((hostAsk s).1, (hostAsk s).2.setMem m) := by
  rcases hostAsk_cases s with ⟨answer, rest, hin, h⟩ | ⟨hin, h⟩
  · rw [h, hostAsk, State.setMem_hostIn, hin]
    rfl
  · rw [h, hostAsk, State.setMem_hostIn, hin]
    rfl

/-- A console read commutes with replacing the store. -/
theorem consoleRead_setMem (s : State) (m : Memory) :
    consoleRead (s.setMem m) = ((consoleRead s).1, (consoleRead s).2.setMem m) := by
  rcases consoleRead_cases s with ⟨b, rest, hinq, h⟩ | ⟨hinq, h⟩
  · rw [h, consoleRead, State.setMem_inq, hinq]
    rfl
  · rw [h, consoleRead, State.setMem_inq, hinq]
    simp only [hostAsk_setMem]

/-- At the console address a bus read commutes with replacing the store. -/
theorem memRead_console_setMem {a : Byte} {s : State} (h : a = s.params.consoleAddr) (m : Memory) :
    memRead a (s.setMem m) = ((memRead a s).1, (memRead a s).2.setMem m) := by
  rw [memRead_console (s := s.setMem m) h, memRead_console h, consoleRead_setMem]

/-- Settles O16: the two sides of the bus decode, the console's by `memRead_console_setMem`. -/
theorem busReadInterceptsConsole : Obligations.BusReadInterceptsConsole := by
  intro a s
  refine ⟨fun hc => ⟨memRead_console hc, fun m => ?_⟩, memRead_store⟩
  rw [memRead_console_setMem hc]

/-! ## Push and pop are bus accesses -/

/-- A push is one bus write at the lowered `sp` (R47). -/
theorem pushByte_eq (v : Byte) (s : State) : pushByte v s = memWrite (s.sp - 1) v (s.setSp (s.sp - 1)) := rfl

/-- A pop is one bus read at `sp`, with `sp` then one higher (R48). -/
theorem popByte_eq (s : State) : popByte s = ((memRead s.sp s).1, (memRead s.sp s).2.setSp (s.sp + 1)) :=
  Prod.ext (popByte_fst s) (popByte_snd s)

/-- A push whose new `sp` is the console address emits the byte. -/
theorem pushByte_console {v : Byte} {s : State} (h : s.sp - 1 = s.params.consoleAddr) :
    pushByte v s = (s.setSp (s.sp - 1)).record (.emitted v) := by
  rw [pushByte_eq, memWrite_console v (by simpa using h)]

/-- A pop with `sp` at the console address answers a console read. -/
theorem popByte_console {s : State} (h : s.sp = s.params.consoleAddr) :
    popByte s = ((consoleRead s).1, (consoleRead s).2.setSp (s.sp + 1)) := by
  rw [popByte_eq, memRead_console h]

/-- The instruction `pop` moves `sp` and makes no read (R48, R170). -/
theorem exec_pop (s : State) : exec .pop s = .next (s.setSp (s.sp + 1)) := rfl

/-- Settles O19, clause by clause from the equations of push and pop. -/
theorem pushAndPopGoThroughTheBus : Obligations.PushAndPopGoThroughTheBus := by
  intro v s
  have pushWraps : s.sp = 0x00 → (pushByte v s).sp = 0xFF := fun h => by rw [pushByte_sp, h]; rfl
  have popWraps : s.sp = 0xFF → (popByte s).2.sp = 0x00 := fun h => by rw [popByte_sp, h]; rfl
  exact ⟨pushByte_eq v s, popByte_eq s, pushWraps, popWraps, popByte_console, pushByte_console, exec_pop s⟩

end Sys2Proof.Machine

/-! The `psh` half and the `phn` row of the decode tree (30_encoding.md R73, R80): bit 7 alone decides `psh`, and the bytes
0xF0 to 0xFF are the values that `phn` pushes. -/

namespace Sys2Proof.Machine

/-! ## The `psh` half -/

/-- The low seven bits of an opcode, as a field and as a truncation. -/
theorem field_low_seven (op : Byte) : field op 0 7 = op.setWidth 7 := by
  ext i hi; simp [field]

/-- The half with bit 7 clear is `psh` (R73). -/
theorem decode_of_bit7_clear (m : NibbleMaps) {op : Byte} (h : op[7] = false) :
    decode m op = .instr (.psh (op.setWidth 7)) := by
  rw [decode, if_pos h, field_low_seven]

/-- No sub-selector of the binary group is `psh`. -/
theorem binaryOf_ne_psh (sel : Nibble) (size : BitVec 2) (imm : BitVec 7) : binaryOf sel size ≠ some (.psh imm) := by
  unfold binaryOf
  repeat' split
  all_goals simp

/-- The unary group holds no `psh`. -/
theorem decodeUnary_ne_psh (m : UnaryNibble) (op : Byte) (imm : BitVec 7) : decodeUnary m op ≠ .instr (.psh imm) := by
  unfold decodeUnary
  cases unaryOf m (field op 0 4) with
  | none => simp
  | some u => cases u <;> simp [UnaryOp.instr]

/-- The register/flag group holds no `psh`. -/
theorem decodeReg_ne_psh (m : RegNibble) (op : Byte) (imm : BitVec 7) : decodeReg m op ≠ .instr (.psh imm) := by
  unfold decodeReg
  cases regOf m (field op 0 4) with
  | none => simp
  | some r => cases r <;> simp [RegOp.instr]

/-- The half with bit 7 set holds no `psh`: no group of the tree below it does. -/
theorem decode_ne_psh_of_bit7_set (m : NibbleMaps) {op : Byte} (h : op[7] = true) (imm : BitVec 7) :
    decode m op ≠ .instr (.psh imm) := by
  rw [decode, if_neg (by simp [h])]
  split
  · cases hb : binaryOf (field op 2 4) (field op 0 2) with
    | none => exact decodeUnary_ne_psh m.unary op imm
    | some i => exact fun hi => binaryOf_ne_psh _ _ imm (hb.trans (congrArg some (Decoded.instr.inj hi)))
  · split
    · split <;> simp
    · split
      · exact decodeReg_ne_psh m.reg op imm
      · simp

/-! ## The `phn` row -/

/-- What `phn n` pushes, as a natural number. -/
theorem phnValue_toNat (n : Nibble) : (phnValue n).toNat = 240 + n.toNat := by
  revert n; decide

/-- What `phn n` pushes is `0xF0 | n` (R80). -/
theorem phnValue_eq_or (n : Nibble) : phnValue n = 0xF0 ||| n.setWidth 8 := by
  revert n; decide

/-- What `phn n` pushes is the sign extension of its low five bits (R80). -/
theorem phnValue_eq_signExtend (n : Nibble) : phnValue n = ((phnValue n).setWidth 5).signExtend 8 := by
  revert n; decide

/-- Read as a signed byte, what `phn n` pushes lies 16 below `n`: R80 gives it the values -16 to -1. -/
theorem phnValue_toInt (n : Nibble) : (phnValue n).toInt = (n.toNat : Int) - 16 := by
  rw [BitVec.toInt_eq_toNat_cond, phnValue_toNat]
  omega

/-- A byte of the row 0xF0 to 0xFF is what `phn` of its low nibble pushes. -/
theorem phnValue_low_nibble {op : Byte} (h : op.toNat / 16 = 15) : phnValue (op.setWidth 4) = op := by
  apply BitVec.eq_of_toNat_eq
  rw [phnValue_toNat, BitVec.toNat_setWidth]
  omega

/-- The byte `phn n` pushes is also its opcode: the decode tree takes the set branch at bits 7 to 4 (R80). -/
theorem decode_phnValue (m : NibbleMaps) (n : Nibble) : decode m (phnValue n) = .instr (.phn n) := by
  have bits : (phnValue n)[7] = true ∧ (phnValue n)[6] = true ∧ (phnValue n)[5] = true ∧ (phnValue n)[4] = true ∧
      field (phnValue n) 0 4 = n := by
    revert n; decide
  obtain ⟨h7, h6, h5, h4, hn⟩ := bits
  simp [decode, h7, h6, h5, h4, hn]

/-- Settles O24: the two halves by bit 7, and the row 0xF0 to 0xFF by writing its byte as `phnValue` of its low nibble. -/
theorem decodePshHalfAndPhnRow : Obligations.DecodePshHalfAndPhnRow := by
  intro m op
  refine ⟨decode_of_bit7_clear m, decode_ne_psh_of_bit7_set m, fun hrow => ?_⟩
  have hop : phnValue (op.setWidth 4) = op := phnValue_low_nibble hrow
  have hdecode : decode m op = .instr (.phn (op.setWidth 4)) := by
    simpa only [hop] using decode_phnValue m (op.setWidth 4)
  have hsext : op = (op.setWidth 5).signExtend 8 := by
    simpa only [hop] using phnValue_eq_signExtend (op.setWidth 4)
  have hint : op.toInt = ((op.setWidth 4).toNat : Int) - 16 := by
    simpa only [hop] using phnValue_toInt (op.setWidth 4)
  have hnib : (op.setWidth 4).toNat < 16 := (op.setWidth 4).isLt
  exact ⟨hdecode, phnValue_eq_or _, hop, hsext, by omega, by omega⟩

end Sys2Proof.Machine

/-! The push-immediate instruction (40_push_immediate.md): the byte `psh` pushes is its own opcode (R100), and the push is
all it does. -/

namespace Sys2Proof.Machine

/-! ## The literal and its opcode -/

/-- Writing a 0 bit over a literal extends it with zeros: the opcode of `psh` is the byte that it pushes (R100). -/
theorem encode_psh_eq_setWidth (m : NibbleMaps) (imm : BitVec 7) : encode m (.psh imm) = imm.setWidth 8 :=
  (BitVec.setWidth_eq_append (by decide)).symm

/-- A 7-bit literal extended to a byte keeps its value, below 0x80. -/
theorem literal_toNat_lt (imm : BitVec 7) : (imm.setWidth 8).toNat < 0x80 := by
  rw [BitVec.toNat_setWidth_of_le (by decide)]
  exact imm.isLt

/-! ## What `psh` does -/

/-- `psh` is one push of its literal, in every state (R100). -/
theorem exec_psh (imm : BitVec 7) (s : State) : exec (.psh imm) s = .next (pushByte (imm.setWidth 8) s) := rfl

/-- Settles O29: the encoding clauses are about the literal alone; the rest is what `pushByte_leaves` says of a push. -/
theorem pshPushesItsLiteral : Obligations.PshPushesItsLiteral := by
  intro imm m s
  have completes : Completes (.psh imm) s s s.ip (s.sp - 1) s.cf [(s.sp - 1, imm.setWidth 8)] :=
    ⟨pushByte (imm.setWidth 8) s, exec_psh imm s, pushByte_leaves (imm.setWidth 8) s⟩
  exact ⟨rfl, encode_psh_eq_setWidth m imm, literal_toNat_lt imm, completes⟩

end Sys2Proof.Machine

/-! The register/flag group (44_register_flag.md): what each instruction does, as one state equation, and the two statements
about the whole instruction set, that only `sti` changes `ip` (R163) and only `nop` has no effect (R169). -/

namespace Sys2Proof.Machine

/-! ## The encoding -/

/-- A register/flag operation is 0xE over its nibble, under every map (30_encoding.md R79). -/
theorem encode_regInstr (m : NibbleMaps) (r : RegOp) : encode m r.instr = 0xE#4 ++ m.reg.of r := by
  cases r <;> rfl

/-! ## Register writes, and reads after a pop -/

/-- All that setting `sp` does. -/
theorem setSp_leaves (u : State) (v : Byte) : LeavesBehind u (u.setSp v) u.ip v u.cf [] :=
  .of_no_write rfl rfl rfl rfl rfl rfl

/-- All that setting `cf` does. -/
theorem setCf_leaves (u : State) (c : Bool) : LeavesBehind u (u.setCf c) u.ip u.sp c [] :=
  .of_no_write rfl rfl rfl rfl rfl rfl

/-- All that setting `sp` and then `ip` does. -/
theorem setSp_setIp_leaves (u : State) (v w : Byte) : LeavesBehind u ((u.setSp v).setIp w) w v u.cf [] :=
  .of_no_write rfl rfl rfl rfl rfl rfl

/-- A bus read after a pop is the second of two bus reads, with `sp` one higher. -/
theorem memRead_popByte (a : Byte) (s : State) :
    memRead a (popByte s).2 =
      ((memRead a (memRead s.sp s).2).1, (memRead a (memRead s.sp s).2).2.setSp (s.sp + 1)) := by
  rw [popByte_snd, memRead_setSp]

/-- Two pops are the bus reads at `sp` and `sp + 1`, with `sp` then two higher. -/
theorem popByte_popByte (s : State) :
    popByte (popByte s).2 =
      ((memRead (s.sp + 1) (memRead s.sp s).2).1, (memRead (s.sp + 1) (memRead s.sp s).2).2.setSp (s.sp + 2)) := by
  have hsp : s.sp + 1 + 1 = s.sp + 2 := by rw [BitVec.add_assoc]; rfl
  rw [popByte_eq, popByte_sp, memRead_popByte, hsp]
  rfl

/-! ## What each instruction does -/

/-- `lda`: the bus reads at `sp` and at the byte read there, then a push from one above `sp` (R160). -/
theorem exec_lda (s : State) :
    let a := memRead s.sp s
    let v := memRead a.1 a.2
    exec .lda s = .next (pushByte v.1 (v.2.setSp (s.sp + 1))) := by
  simp only [exec, execLda, popByte_fst, memRead_popByte]

/-- `sta`: the bus reads at `sp` and `sp + 1`, then a bus write with `sp` two higher (R161). -/
theorem exec_sta (s : State) :
    let a := memRead s.sp s
    let v := memRead (s.sp + 1) a.2
    exec .sta s = .next (memWrite a.1 v.1 (v.2.setSp (s.sp + 2))) := by
  simp only [exec, execSta, popByte_fst, popByte_popByte]

/-- `sti`: the bus read at `sp`, then `sp` one higher and `ip` the byte read (R163). -/
theorem exec_sti (s : State) :
    exec .sti s = .next (((memRead s.sp s).2.setSp (s.sp + 1)).setIp (memRead s.sp s).1) := by
  simp only [exec, execSti, popByte_eq]

/-- `sts`: the bus read at `sp`, then `sp` the byte read: the pop's increment is lost (R165). -/
theorem exec_sts (s : State) : exec .sts s = .next ((memRead s.sp s).2.setSp (memRead s.sp s).1) := by
  simp only [exec, execSts, popByte_eq]
  rfl

/-- `clc` clears `cf` (R166). -/
theorem exec_clc (s : State) : exec .clc s = .next (s.setCf false) := rfl

/-- `sec` sets `cf` (R167). -/
theorem exec_sec (s : State) : exec .sec s = .next (s.setCf true) := rfl

/-- `flc` complements `cf` (R168). -/
theorem exec_flc (s : State) : exec .flc s = .next (s.setCf (!s.cf)) := rfl

/-- `nop` leaves the state as the fetch left it (R169). -/
theorem exec_nop (s : State) : exec .nop s = .next s := rfl

/-! ## The statements about one instruction -/

/-- Away from the console a pointer to its own slot reads itself (R160). -/
theorem memRead_self_pointer {s : State} (hsp : s.sp ≠ s.params.consoleAddr) (hself : (memRead s.sp s).1 = s.sp) :
    (memRead (memRead s.sp s).1 (memRead s.sp s).2).1 = (memRead s.sp s).1 := by
  have hstate : (memRead s.sp s).2 = s := by rw [memRead_store hsp]
  rw [hstate, hself, hself]

/-- Settles O45: after the two reads a push from one above `sp` writes at `sp` itself. -/
theorem ldaReplacesTheTopByTheByteItPointsAt : Obligations.LdaReplacesTheTopByTheByteItPointsAt := by
  refine ⟨fun m => encode_regInstr m .lda, rfl, fun s => ?_⟩
  intro a v
  have pushed : LeavesBehind v.2 (pushByte v.1 (v.2.setSp (s.sp + 1))) s.ip s.sp s.cf [(s.sp, v.1)] := by
    simpa only [a, v, memRead_ip, memRead_cf, BitVec.add_sub_cancel, List.nil_append] using
      (setSp_leaves v.2 (s.sp + 1)).pushByte v.1
  exact ⟨⟨_, exec_lda s, pushed⟩, memRead_self_pointer⟩

/-- Settles O46: after the two reads one bus write, with `sp` two higher. -/
theorem staStoresTheSecondAtTheTop : Obligations.StaStoresTheSecondAtTheTop := by
  refine ⟨fun m => encode_regInstr m .sta, rfl, fun s => ?_⟩
  intro a v
  have written : LeavesBehind v.2 (memWrite a.1 v.1 (v.2.setSp (s.sp + 2))) s.ip (s.sp + 2) s.cf [(a.1, v.1)] := by
    simpa only [a, v, memRead_ip, memRead_cf, List.nil_append] using
      (setSp_leaves v.2 (s.sp + 2)).memWrite a.1 v.1
  exact ⟨_, exec_sta s, written⟩

/-- Settles O50: the byte read at the old `sp` overrides the pop's increment. -/
theorem stsSetsTheStackPointer : Obligations.StsSetsTheStackPointer := by
  refine ⟨fun m => encode_regInstr m .sts, rfl, fun s => ?_⟩
  intro v
  have moved := setSp_leaves v.2 v.1
  rw [memRead_ip, memRead_cf] at moved
  exact ⟨_, exec_sts s, moved⟩

/-- Settles O51: each of the three is one write of `cf`. -/
theorem clcSecFlcWriteTheCarryAlone : Obligations.ClcSecFlcWriteTheCarryAlone := by
  have encoding (m : NibbleMaps) : encode m .clc = 0xE#4 ++ m.reg.clc ∧ encode m .sec = 0xE#4 ++ m.reg.sec ∧
      encode m .flc = 0xE#4 ++ m.reg.flc :=
    ⟨encode_regInstr m .clc, encode_regInstr m .sec, encode_regInstr m .flc⟩
  refine ⟨encoding, rfl, rfl, rfl, fun s => ⟨?clc, ?sec, ?flc⟩⟩
  case clc => exact ⟨_, exec_clc s, setCf_leaves s false⟩
  case sec => exact ⟨_, exec_sec s, setCf_leaves s true⟩
  case flc => exact ⟨_, exec_flc s, setCf_leaves s (!s.cf)⟩

/-- Settles O53: `pop` is one write of `sp`. -/
theorem popMovesTheStackPointerWithoutARead : Obligations.PopMovesTheStackPointerWithoutARead :=
  ⟨fun m => encode_regInstr m .pop, rfl, fun s => ⟨_, exec_pop s, setSp_leaves s (s.sp + 1)⟩⟩

/-! ## Only `sti` changes `ip` -/

@[simp] theorem binaryFrame_ip (f : BinaryFn) (size : BitVec 2) (s : State) : (binaryFrame f size s).2.ip = s.ip :=
  (binaryFrame_leaves f size s).2.ip_eq

@[simp] theorem binaryFrame_sp (f : BinaryFn) (size : BitVec 2) (s : State) :
    (binaryFrame f size s).2.sp = s.sp + 1 :=
  (binaryFrame_leaves f size s).2.sp_eq

@[simp] theorem unaryFrame_ip (g : UnaryFn) (s : State) : (unaryFrame g s).ip = s.ip := (unaryFrame_leaves g s).ip_eq

/-- Every instruction but `sti` leaves `ip` as the fetch left it: the frames, the bus and the register writes of `sp` and
`cf` do not touch it (R163). -/
theorem exec_ip {i : Instr} {s t : State} (hi : i ≠ .sti) (h : exec i s = .next t) : t.ip = s.ip := by
  cases i with
  | sti => exact absurd rfl hi
  | psh imm | phn n | ldi | lds => cases h; exact pushByte_ip _ s
  | add size | sub size | iff size | rot size | orr size | and size | xor size | xnd size =>
    cases h; exact binaryFrame_ip _ size s
  | swp size => cases h; rw [pushByte_ip, binaryFrame_ip]
  | inc | dec | neg | shl | shr | not | buf => cases h; exact unaryFrame_ip _ s
  | ldo offset => cases h; rw [pushByte_ip, memRead_ip]
  | sto offset => cases h; rw [memWrite_ip, popByte_ip]
  | lda => cases h; rw [pushByte_ip, memRead_ip, popByte_ip]
  | sta => cases h; rw [memWrite_ip, popByte_ip, popByte_ip]
  | sts => cases h; rw [State.setSp_ip, popByte_ip]
  | dbg | clc | sec | flc | nop | pop => cases h; rfl

/-- Settles O48: the jump from `exec_sti`, and the other instructions by `exec_ip`. -/
theorem stiJumpsAndNothingElseDoes : Obligations.StiJumpsAndNothingElseDoes := by
  refine ⟨fun m => encode_regInstr m .sti, rfl, fun s => ?_, fun _ _ _ => exec_ip⟩
  intro t
  have jumped := setSp_setIp_leaves t.2 (s.sp + 1) t.1
  rw [memRead_cf] at jumped
  exact ⟨_, exec_sti s, jumped⟩

/-! ## Only `nop` has no effect -/

/-- An instruction that ends in another state has an effect. -/
theorem exec_ne_of_ne {i : Instr} {s t : State} (h : exec i s = .next t) (ht : t ≠ s) : exec i s ≠ .next s :=
  fun hs => ht (Host.Outcome.next.inj (h.symm.trans hs))

/-- An instruction that moves `sp` has an effect. -/
theorem exec_ne_of_sp_ne {i : Instr} {s t : State} (h : exec i s = .next t) (hsp : t.sp ≠ s.sp) :
    exec i s ≠ .next s :=
  exec_ne_of_ne h (fun e => hsp (congrArg State.sp e))

/-- A state on which every instruction but `nop` and `sec` has an effect: the carry is set, the top
of stack is 1 and every other byte, among them the one it points at and those above it, is 0. -/
def carryProbe : State := { State.reset with sp := 0x40, cf := true, mem := [(0x40, 0x01)] }

/-- The operations with an operand move `sp`, but for `swp`, which exchanges the 1 with a 0; the operations without one
are run on `carryProbe`. -/
theorem exec_carryProbe_ne {i : Instr} (hnop : i ≠ .nop) (hsec : i ≠ .sec) :
    exec i carryProbe ≠ .next carryProbe := by
  have raised : carryProbe.sp + 1 ≠ carryProbe.sp := by decide
  have lowered : carryProbe.sp - 1 ≠ carryProbe.sp := by decide
  cases i with
  | nop => exact absurd rfl hnop
  | sec => exact absurd rfl hsec
  | psh imm | phn n => exact exec_ne_of_sp_ne rfl (by rwa [pushByte_sp])
  | add size | sub size | iff size | rot size | orr size | and size | xor size | xnd size =>
    exact exec_ne_of_sp_ne rfl (by rwa [binaryFrame_sp])
  | swp size => exact exec_ne_of_ne rfl (by revert size; decide)
  | ldo offset => exact exec_ne_of_sp_ne rfl (by rwa [pushByte_sp, memRead_sp])
  | sto offset => exact exec_ne_of_sp_ne rfl (by rwa [memWrite_sp, popByte_sp])
  | inc | dec | neg | shl | shr | not | buf | dbg | lda | sta | ldi | sti | lds | sts | clc | flc | pop =>
    exact exec_ne_of_ne rfl (by decide)

/-- `sec` has an effect where the carry is clear. -/
theorem exec_sec_reset_ne : exec .sec State.reset ≠ .next State.reset :=
  exec_ne_of_ne (exec_sec State.reset) (by decide)

/-- An instruction that never has an effect is `nop`: `sec` has one on the state after reset, any other on `carryProbe`. -/
theorem eq_nop_of_no_effect {i : Instr} (h : ∀ s : State, exec i s = .next s) : i = .nop := by
  by_contra hnop
  have hsec : i ≠ .sec := by
    rintro rfl
    exact exec_sec_reset_ne (h State.reset)
  exact exec_carryProbe_ne hnop hsec (h carryProbe)

/-- Settles O52: `nop` from its equation, and that it stands alone by `eq_nop_of_no_effect`. -/
theorem nopIsTheOnlyInstructionWithoutEffect : Obligations.NopIsTheOnlyInstructionWithoutEffect :=
  ⟨fun m => encode_regInstr m .nop, rfl, exec_nop, fun _ => eq_nop_of_no_effect⟩

end Sys2Proof.Machine

/-! The push-negative instruction (45_push_negative.md): `phn` is one push of its own opcode (R180, which 90_conflicts.md C1
settles), and `psh` and `phn` between them push the bytes below 0x80 and those from 0xF0. -/

namespace Sys2Proof.Machine

/-! ## What `phn` does -/

/-- The opcode of `phn` is the byte that it pushes (R180). -/
theorem encode_phn_eq_phnValue (m : NibbleMaps) (n : Nibble) : encode m (.phn n) = phnValue n := rfl

/-- `phn` is one push of its value, in every state (R180). -/
theorem exec_phn (n : Nibble) (s : State) : exec (.phn n) s = .next (pushByte (phnValue n) s) := rfl

/-! ## The bytes that the two immediate pushes reach -/

/-- The bytes that `psh` can push are those below 0x80: such a byte is its own low seven bits. -/
theorem toNat_lt_iff_exists_literal (v : Byte) : v.toNat < 0x80 ↔ ∃ imm : BitVec 7, imm.setWidth 8 = v := by
  constructor
  · intro hlow
    refine ⟨v.setWidth 7, BitVec.eq_of_toNat_eq ?_⟩
    rw [BitVec.toNat_setWidth_of_le (by decide), BitVec.toNat_setWidth, Nat.mod_eq_of_lt hlow]
  · rintro ⟨imm, rfl⟩
    exact literal_toNat_lt imm

/-- The bytes that `phn` can push are those from 0xF0: such a byte is in the row that `phnValue_low_nibble` speaks of. -/
theorem le_toNat_iff_exists_phnValue (v : Byte) : 0xF0 ≤ v.toNat ↔ ∃ n : Nibble, phnValue n = v := by
  constructor
  · intro hhigh
    have hrow : v.toNat / 16 = 15 := by
      have hbyte : v.toNat < 256 := v.isLt
      omega
    exact ⟨v.setWidth 4, phnValue_low_nibble hrow⟩
  · rintro ⟨n, rfl⟩
    rw [phnValue_toNat]
    exact Nat.le_add_right 240 n.toNat

/-- Settles O30: with the pushed byte written as `phnValue n`, the first part is what `pushByte_leaves` says of a push, and
the second joins the ranges of the two literals. -/
theorem phnPushesANegativeLiteral : Obligations.PhnPushesANegativeLiteral := by
  unfold Obligations.PhnPushesANegativeLiteral
  simp only [← phnValue_eq_or]
  constructor
  · intro n m s
    have signed : (phnValue n).toInt = -16 + n.toNat := by
      rw [phnValue_toInt]
      omega
    have completes : Completes (.phn n) s s s.ip (s.sp - 1) s.cf [(s.sp - 1, phnValue n)] :=
      ⟨pushByte (phnValue n) s, exec_phn n s, pushByte_leaves (phnValue n) s⟩
    exact ⟨rfl, encode_phn_eq_phnValue m n, signed, completes⟩
  · intro v
    exact or_congr (toNat_lt_iff_exists_literal v) (le_toNat_iff_exists_phnValue v)

end Sys2Proof.Machine

/-! What a step can do, as a sequence of bus accesses and register writes: every instruction but `dbg` is one, so a fact
that each access and each register write keeps holds after every step. The invariants (the canonical store, the cell under
the console, the parameters), the order of the console traffic (20_memory.md R55) and the traps (60_exceptions.md) follow. -/

namespace Sys2Proof.Machine

/-! ## Sequences of bus accesses -/

/-- `t` is reached from `s` by writes of `ip`, `sp` and `cf` and by bus accesses, at these addresses in this order. -/
inductive BusRun (s : State) : List Byte → State → Prop where
  | refl : BusRun s [] s
  | read {as : List Byte} {t : State} (a : Byte) (h : BusRun s as t) : BusRun s (as ++ [a]) (memRead a t).2
  | write {as : List Byte} {t : State} (a v : Byte) (h : BusRun s as t) : BusRun s (as ++ [a]) (memWrite a v t)
  | setIp {as : List Byte} {t : State} (v : Byte) (h : BusRun s as t) : BusRun s as (t.setIp v)
  | setSp {as : List Byte} {t : State} (v : Byte) (h : BusRun s as t) : BusRun s as (t.setSp v)
  | setCf {as : List Byte} {t : State} (c : Bool) (h : BusRun s as t) : BusRun s as (t.setCf c)

namespace BusRun

variable {s t u : State} {as bs : List Byte}

theorem trans (hst : BusRun s as t) (htu : BusRun t bs u) : BusRun s (as ++ bs) u := by
  induction htu with
  | refl => simpa using hst
  | read a _ ih => simpa using ih.read a
  | write a v _ ih => simpa using ih.write a v
  | setIp v _ ih => exact ih.setIp v
  | setSp v _ ih => exact ih.setSp v
  | setCf c _ ih => exact ih.setCf c

theorem push (v : Byte) (h : BusRun s as t) : BusRun s (as ++ [t.sp - 1]) (pushByte v t) := (h.setSp _).write _ v

theorem pop (h : BusRun s as t) : BusRun s (as ++ [t.sp]) (popByte t).2 := (h.read _).setSp _

theorem writeFlag (c : Option Bool) (h : BusRun s as t) : BusRun s as (writeFlag c t) := by
  cases c with
  | none => exact h
  | some b => exact h.setCf b

/-- The binary frame reads at `sp` and at its slot, and writes at the slot (41_binary_alu.md R110). -/
theorem binaryFrame (f : BinaryFn) (size : BitVec 2) (s : State) :
    BusRun s [s.sp, sizeAddr (s.sp + 1) size, sizeAddr (s.sp + 1) size] (binaryFrame f size s).2 := by
  rw [← popByte_sp s]
  exact ((refl.pop.read _).write _ _).writeFlag _

/-- The unary frame reads and writes at `sp` (42_unary_alu.md R130). -/
theorem unaryFrame (g : UnaryFn) (s : State) : BusRun s [s.sp, (popByte s).2.sp - 1] (unaryFrame g s) :=
  (refl.pop.push _).writeFlag _

/-! ## What a sequence of bus accesses keeps -/

theorem params_eq (h : BusRun s as t) : t.params = s.params := by
  induction h with
  | refl => rfl
  | read a _ ih => rw [memRead_params, ih]
  | write a v _ ih => rw [memWrite_params, ih]
  | setIp _ _ ih | setSp _ _ ih | setCf _ _ ih => exact ih

theorem status_eq (h : BusRun s as t) : t.status = s.status := by
  induction h with
  | refl => rfl
  | read a _ ih => rw [memRead_status, ih]
  | write a v _ ih => rw [memWrite_status, ih]
  | setIp _ _ ih | setSp _ _ ih | setCf _ _ ih => exact ih

/-- The store stays in canonical form: only a bus write changes it, and that keeps the form. -/
theorem mem_wf (h : BusRun s as t) (hwf : s.mem.wf = true) : t.mem.wf = true := by
  induction h with
  | refl => exact hwf
  | read a _ ih => rwa [memRead_mem]
  | write a v _ ih => exact memWrite_wf a v _ ih
  | setIp _ _ ih | setSp _ _ ih | setCf _ _ ih => exact ih

/-- No bus write reaches the store's byte under the console address (20_memory.md R46). -/
theorem read_consoleAddr (h : BusRun s as t) :
    t.mem.read s.params.consoleAddr = s.mem.read s.params.consoleAddr := by
  induction h with
  | refl => rfl
  | read a _ ih => rw [memRead_mem, ih]
  | write a v run ih => rw [memWrite_read, if_neg (fun reach => reach.2 (by rw [run.params_eq])), ih]
  | setIp _ _ ih | setSp _ _ ih | setCf _ _ ih => exact ih

end BusRun

/-! ## Every instruction and every fetch is one -/

/-- The slot of a binary operation is not the top of stack: it lies 1 to 4 above it (41_binary_alu.md R110). -/
theorem sizeAddr_ne_sp (sp : Byte) (size : BitVec 2) : sizeAddr (sp + 1) size ≠ sp := by
  rw [sizeAddr]
  bv_omega

/-- Four accesses at two addresses, twice at each, are at most three at any one. -/
theorem count_two_addresses {a b : Byte} (hab : a ≠ b) (c : Byte) : [b, a, a, b].count c ≤ 3 := by
  by_cases hb : b = c
  · subst hb; simp [hab]
  · rw [List.count_cons_of_ne hb]
    exact List.count_le_length

/-- Every instruction but `dbg` is a sequence of bus accesses and register writes, of which at most three are at any one
address: only `swp` makes four, and those are at two addresses. -/
theorem exec_busRun {i : Instr} {s t : State} (hi : i ≠ .dbg) (h : exec i s = .next t) :
    ∃ as, BusRun s as t ∧ ∀ c, as.count c ≤ 3 := by
  have short {as : List Byte} {t : State} (run : BusRun s as t) (hlen : as.length ≤ 3) :
      ∃ as, BusRun s as t ∧ ∀ c, as.count c ≤ 3 := ⟨as, run, fun _ => List.count_le_length.trans hlen⟩
  cases i with
  | dbg => exact absurd rfl hi
  | psh imm | phn n | ldi | lds => cases h; exact short (BusRun.refl.push _) (by simp)
  | add size | sub size | iff size | rot size | orr size | and size | xor size | xnd size =>
    cases h; exact short (.binaryFrame _ size s) (by simp)
  | swp size =>
    cases h
    refine ⟨_, (BusRun.binaryFrame swpFn size s).push _, fun c => ?_⟩
    rw [binaryFrame_sp, BitVec.add_sub_cancel]
    exact count_two_addresses (sizeAddr_ne_sp s.sp size) c
  | inc | dec | neg | shl | shr | not | buf => cases h; exact short (.unaryFrame _ s) (by simp)
  | ldo offset => cases h; exact short ((BusRun.refl.read _).push _) (by simp)
  | sto offset => cases h; exact short (BusRun.refl.pop.write _ _) (by simp)
  | lda => cases h; exact short ((BusRun.refl.pop.read _).push _) (by simp)
  | sta => cases h; exact short (BusRun.refl.pop.pop.write _ _) (by simp)
  | sti => cases h; exact short (BusRun.refl.pop.setIp _) (by simp)
  | sts => cases h; exact short (BusRun.refl.pop.setSp _) (by simp)
  | clc | sec | flc => cases h; exact short (BusRun.refl.setCf _) (by simp)
  | nop => cases h; exact short .refl (by simp)
  | pop => cases h; exact short (BusRun.refl.setSp _) (by simp)

/-- A fetch makes at most one bus access (20_memory.md R49). -/
theorem fetch_busRun (s : State) : ∃ as, BusRun s as (fetch s).2 ∧ as.length ≤ 1 := by
  rcases fetchByte_cases s with ⟨_, hc, hf⟩ | ⟨_, hf⟩
  · refine ⟨[s.ip], ?_, le_rfl⟩
    rw [fetch, hf, ← memRead_console hc]
    exact (BusRun.refl.read s.ip).setIp _
  · refine ⟨[], ?_, by simp⟩
    rw [fetch, hf]
    exact BusRun.refl.setIp _

/-- All a step can do (30_encoding.md R72): a running machine fetches, and then runs the instruction to the end, or takes
the trap of `dbg`, or takes the trap of an Illegal byte. -/
theorem step_outcome {s t : State} (h : step s = .next t) :
    s.status = .running ∧
      ((∃ i as, i ≠ .dbg ∧ decode s.params.nibbles (fetch s).1 = .instr i ∧
          BusRun (fetch s).2 as t ∧ ∀ c, as.count c ≤ 3) ∨
        (decode s.params.nibbles (fetch s).1 = .instr .dbg ∧ t = raiseTrap .debugRequest (fetch s).2) ∨
        ∃ why, decode s.params.nibbles (fetch s).1 = .illegal why ∧ t = raiseTrap .illegalOpcode (fetch s).2) := by
  obtain ⟨hrun, ⟨i, hdec, hexec⟩ | hillegal⟩ := step_cases h
  · refine ⟨hrun, ?_⟩
    by_cases hi : i = .dbg
    · subst hi
      exact .inr (.inl ⟨hdec, (Host.Outcome.next.inj hexec).symm⟩)
    · obtain ⟨as, run, hcount⟩ := exec_busRun hi hexec
      exact .inl ⟨i, as, hi, hdec, run, hcount⟩
  · exact ⟨hrun, .inr (.inr hillegal)⟩

/-- A step is a sequence of bus accesses and register writes, at most four of them at any one address, and then perhaps a
write of the status latch. -/
theorem step_busRun {s t : State} (h : step s = .next t) :
    ∃ as u, BusRun s as u ∧ (∀ c, as.count c ≤ 4) ∧ t = u.setStatus t.status := by
  obtain ⟨as, fetched, hlen⟩ := fetch_busRun s
  have hfetch (c : Byte) : as.count c ≤ 1 := List.count_le_length.trans hlen
  obtain ⟨-, ⟨i, bs, -, -, run, hcount⟩ | ⟨-, rfl⟩ | ⟨why, -, rfl⟩⟩ := step_outcome h
  · refine ⟨as ++ bs, t, fetched.trans run, fun c => ?_, rfl⟩
    have := hfetch c
    have := hcount c
    rw [List.count_append]
    omega
  · exact ⟨as, _, fetched, fun c => (hfetch c).trans (by decide), rfl⟩
  · exact ⟨as, _, fetched, fun c => (hfetch c).trans (by decide), rfl⟩

/-! ## The invariants -/

/-- Settles O4: the accesses of a step keep the canonical form and the parameters, and the latch touches neither. -/
theorem stepKeepsWellFormed : Obligations.StepKeepsWellFormed := by
  intro s t hwf h
  obtain ⟨as, u, run, -, ht⟩ := step_busRun h
  obtain ⟨hmem, hmaps⟩ := Bool.and_eq_true_iff.mp hwf
  rw [ht]
  refine Bool.and_eq_true_iff.mpr ⟨run.mem_wf hmem, ?_⟩
  rwa [State.setStatus_params, run.params_eq]

/-- Settles O5, likewise. -/
theorem stepKeepsConsoleCellAndParameters : Obligations.StepKeepsConsoleCellAndParameters := by
  intro s t h
  obtain ⟨as, u, run, -, ht⟩ := step_busRun h
  rw [ht]
  exact ⟨run.params_eq, run.read_consoleAddr⟩

/-! ## The console traffic -/

/-- The bytes a list of console accesses took from the pushback list, in order. -/
def takenBytes (es : List ConsoleEvent) : List Byte :=
  es.filterMap (fun e => match e with
    | .pushedBack b => some b
    | .asked _ => none
    | .emitted _ => none)

/-- The host's answers a list of console accesses drew, in order. -/
def drawnAnswers (es : List ConsoleEvent) : List HostAnswer :=
  es.filterMap (fun e => match e with
    | .pushedBack _ => none
    | .asked a => some a
    | .emitted _ => none)

/-- The console accesses `es` lead from the console streams of `s` to those of `t` (20_memory.md R44, R45, R55). -/
structure ConsoleTraffic (s : State) (es : List ConsoleEvent) (t : State) : Prop where
  history_eq : t.history = s.history ++ es
  inq_eq : s.inq = takenBytes es ++ t.inq
  hostIn_eq : t.hostIn = s.hostIn.drop (drawnAnswers es).length
  ready_eq : (drawnAnswers es).take s.hostIn.length = s.hostIn.take (drawnAnswers es).length
  drained : drawnAnswers es ≠ [] → t.inq = []

namespace ConsoleTraffic

variable {s t u : State} {es fs : List ConsoleEvent}

/-- No console access. -/
theorem of_eq (hh : t.history = s.history) (hq : t.inq = s.inq) (hin : t.hostIn = s.hostIn) :
    ConsoleTraffic s [] t where
  history_eq := by simp [hh]
  inq_eq := by simp [hq, takenBytes]
  hostIn_eq := by simp [hin, drawnAnswers]
  ready_eq := by simp [drawnAnswers]
  drained := by simp [drawnAnswers]

theorem trans (hst : ConsoleTraffic s es t) (htu : ConsoleTraffic t fs u) : ConsoleTraffic s (es ++ fs) u := by
  have taken : takenBytes (es ++ fs) = takenBytes es ++ takenBytes fs := List.filterMap_append
  have drawn : drawnAnswers (es ++ fs) = drawnAnswers es ++ drawnAnswers fs := List.filterMap_append
  constructor
  case history_eq => rw [htu.history_eq, hst.history_eq, List.append_assoc]
  case inq_eq => rw [hst.inq_eq, htu.inq_eq, taken, List.append_assoc]
  case hostIn_eq => rw [htu.hostIn_eq, hst.hostIn_eq, drawn, List.length_append, List.drop_drop]
  case ready_eq =>
    have later := htu.ready_eq
    rw [hst.hostIn_eq, List.length_drop] at later
    rw [drawn, List.take_append, hst.ready_eq, later, List.length_append, List.take_add]
  case drained =>
    rw [drawn]
    intro hne
    by_cases hfs : drawnAnswers fs = []
    · have hempty := hst.drained (by simpa [hfs] using hne)
      rw [htu.inq_eq] at hempty
      exact (List.append_eq_nil_iff.mp hempty).2
    · exact htu.drained hfs

/-- The streams are all that console traffic speaks of. -/
theorem congr (h : ConsoleTraffic s es t) (hh : u.history = t.history) (hq : u.inq = t.inq)
    (hin : u.hostIn = t.hostIn) : ConsoleTraffic s es u := by
  simpa using h.trans (.of_eq hh hq hin)

/-- A console write is one emitted byte. -/
theorem record_emitted (s : State) (v : Byte) : ConsoleTraffic s [.emitted v] (s.record (.emitted v)) :=
  ⟨rfl, rfl, rfl, by simp [drawnAnswers], by simp [drawnAnswers]⟩

/-- A console read is one access: a byte of the pushback list, or an answer of the host once that list is empty. -/
theorem consoleRead (s : State) : ∃ e, ConsoleTraffic s [e] (consoleRead s).2 := by
  rcases consoleRead_cases s with ⟨b, rest, hq, h⟩ | ⟨hq, h⟩
  · rw [h]
    exact ⟨.pushedBack b, rfl, hq, rfl, by simp [drawnAnswers], by simp [drawnAnswers]⟩
  · rw [h]
    rcases hostAsk_cases s with ⟨answer, rest, hin, hask⟩ | ⟨hin, hask⟩
    · rw [hask]
      exact ⟨.asked answer, rfl, by simp [takenBytes], by simp [hin, drawnAnswers], by simp [hin, drawnAnswers],
        fun _ => hq⟩
    · rw [hask]
      exact ⟨.asked (Config.hostInput s.history), rfl, by simp [takenBytes], by simp [hin], by simp [hin], fun _ => hq⟩

end ConsoleTraffic

/-- The console accesses of a sequence of bus accesses: one for each at the console address. -/
theorem BusRun.consoleTraffic {s t : State} {as : List Byte} (h : BusRun s as t) :
    ∃ es, ConsoleTraffic s es t ∧ es.length = as.count s.params.consoleAddr := by
  induction h with
  | refl => exact ⟨[], .of_eq rfl rfl rfl, rfl⟩
  | @read as t a run ih =>
    obtain ⟨es, traffic, hlen⟩ := ih
    rw [← run.params_eq] at hlen ⊢
    by_cases hc : a = t.params.consoleAddr
    · obtain ⟨e, access⟩ := ConsoleTraffic.consoleRead t
      rw [memRead_console hc]
      exact ⟨es ++ [e], traffic.trans access, by simp [hlen, hc]⟩
    · rw [memRead_store hc]
      exact ⟨es, traffic, by simp [hlen, hc]⟩
  | @write as t a v run ih =>
    obtain ⟨es, traffic, hlen⟩ := ih
    rw [← run.params_eq] at hlen ⊢
    by_cases hc : a = t.params.consoleAddr
    · rw [memWrite_console v hc]
      exact ⟨es ++ [.emitted v], traffic.trans (.record_emitted t v), by simp [hlen, hc]⟩
    · rw [memWrite_store v hc]
      exact ⟨es, traffic.congr rfl rfl rfl, by simp [hlen, hc]⟩
  | setIp _ _ ih | setSp _ _ ih | setCf _ _ ih =>
    obtain ⟨es, traffic, hlen⟩ := ih
    exact ⟨es, traffic.congr rfl rfl rfl, hlen⟩

/-- Settles O6: at most four accesses of a step are at the console address, and each is one console access. -/
theorem stepMovesConsoleStreamsInOrder : Obligations.StepMovesConsoleStreamsInOrder := by
  intro s t h
  obtain ⟨as, u, run, hcount, ht⟩ := step_busRun h
  obtain ⟨es, traffic, hlen⟩ := run.consoleTraffic
  have output : u.hostOutput = s.hostOutput ++ emittedBytes es := by
    rw [State.hostOutput, traffic.history_eq]
    exact List.filterMap_append
  rw [ht]
  exact ⟨es, traffic.history_eq, hlen ▸ hcount _, output, traffic.inq_eq, traffic.hostIn_eq, traffic.ready_eq,
    traffic.drained⟩

/-! ## Steps and traps -/

/-- Every instruction answers a next state, a trap being one (the spec's D13). -/
theorem exec_total (i : Instr) (s : State) : ∃ t, exec i s = .next t := by
  cases i <;> exact ⟨_, rfl⟩

/-- A running machine executes what it fetched. -/
theorem step_instr {s : State} {i : Instr} (hrun : s.status = .running)
    (hdec : decode s.params.nibbles (fetch s).1 = .instr i) : step s = exec i (fetch s).2 := by
  simp only [step, hrun, fetch_params, hdec]

/-- A running machine that fetched an Illegal byte takes IllegalOpcode. -/
theorem step_illegal {s : State} {why : IllegalKind} (hrun : s.status = .running)
    (hdec : decode s.params.nibbles (fetch s).1 = .illegal why) :
    step s = .next (raiseTrap .illegalOpcode (fetch s).2) := by
  simp only [step, hrun, fetch_params, hdec]

theorem safeStep_of_running {s : State} (hrun : s.status = .running) : SafeStep s := by
  cases hdec : decode s.params.nibbles (fetch s).1 with
  | instr i =>
    obtain ⟨t, ht⟩ := exec_total i (fetch s).2
    exact ⟨t, (step_instr hrun hdec).trans ht⟩
  | illegal why => exact ⟨_, step_illegal hrun hdec⟩

/-- Settles O8: a running step executes an instruction, which answers a next state, or takes a trap, which is one. -/
theorem runningStepAlwaysAnswersNext : Obligations.RunningStepAlwaysAnswersNext := by
  refine ⟨fun _ => safeStep_of_running, fun s hip => ?_, fun s => ⟨_, exec_sti s, rfl, safeStep_of_running⟩⟩
  rw [fetch_ip, hip]
  rfl

/-- A fetch through the bus at the console address is the console read, with `ip` one higher (D6). -/
theorem fetch_console {s : State} (hbus : s.params.fetchViaBus = true) (hip : s.ip = s.params.consoleAddr) :
    fetch s = ((consoleRead s).1, (consoleRead s).2.setIp (s.ip + 1)) := by
  rcases fetchByte_cases s with ⟨-, -, hf⟩ | ⟨hno, -⟩
  · rw [fetch, hf, consoleRead_ip]
  · exact absurd ⟨hbus, hip⟩ hno

/-- Any other fetch is the store's byte at `ip`, with `ip` one higher. -/
theorem fetch_store {s : State} (h : s.params.fetchViaBus = false ∨ s.ip ≠ s.params.consoleAddr) :
    fetch s = (s.mem.read s.ip, s.setIp (s.ip + 1)) := by
  rcases fetchByte_cases s with ⟨hbus, hip, -⟩ | ⟨-, hf⟩
  · rcases h with hoff | hne
    · exact absurd (hbus.symm.trans hoff) (by decide)
    · exact absurd hip hne
  · rw [fetch, hf]

/-- Settles O7, the two fetches by `fetch_console` and `fetch_store`. -/
theorem stepRunsDecodedInstruction : Obligations.StepRunsDecodedInstruction :=
  fun _ _ hrun hdec => ⟨step_instr hrun hdec, fetch_console, fetch_store⟩

/-- Settles O9. -/
theorem trappedMachineTakesNoStep : Obligations.TrappedMachineTakesNoStep := by
  intro s k hk
  exact ⟨by simp only [step, hk], rfl⟩

/-- The trap a decoded byte stands for. -/
def decodedTrap : Decoded → Option TrapKind
  | .instr .dbg => some .debugRequest
  | .instr _ => none
  | .illegal _ => some .illegalOpcode

theorem decodedTrap_instr {i : Instr} (hi : i ≠ .dbg) : decodedTrap (.instr i) = none := by
  cases i with
  | dbg => exact absurd rfl hi
  | _ => rfl

/-- The trap of a step is read off what its fetched byte decodes to (60_exceptions.md R200 to R202). -/
theorem step_trap {s t : State} (h : step s = .next t) :
    t.trap = decodedTrap (decode s.params.nibbles (fetch s).1) := by
  obtain ⟨hrun, ⟨i, as, hi, hdec, run, -⟩ | ⟨hdec, rfl⟩ | ⟨why, hdec, rfl⟩⟩ := step_outcome h
  · have running : t.status = .running := by rw [run.status_eq, fetch_status, hrun]
    rw [hdec, decodedTrap_instr hi, State.trap, running]
  · rw [hdec]; rfl
  · rw [hdec]; rfl

/-- Settles O12: the three values of `step_trap`. -/
theorem trapsComeOnlyFromIllegalBytesAndDbg : Obligations.TrapsComeOnlyFromIllegalBytesAndDbg := by
  intro s t h
  rw [step_trap h]
  cases decode s.params.nibbles (fetch s).1 with
  | illegal why => simp [decodedTrap]
  | instr i =>
    by_cases hi : i = .dbg
    · subst hi; simp [decodedTrap]
    · simp [decodedTrap_instr hi, hi]

/-- A step that ends trapped did nothing after the fetch but set the latch (60_exceptions.md R205). -/
theorem step_trapped {s t : State} {k : TrapKind} (h : step s = .next t) (hk : t.status = .trapped k) :
    t = (fetch s).2.setStatus (.trapped k) := by
  obtain ⟨hrun, ⟨i, as, -, -, run, -⟩ | ⟨-, rfl⟩ | ⟨why, -, rfl⟩⟩ := step_outcome h
  · rw [run.status_eq, fetch_status, hrun] at hk
    cases hk
  · cases hk; rfl
  · cases hk; rfl

/-- Settles O13. -/
theorem trapsArePrecise : Obligations.TrapsArePrecise := fun _ _ _ => step_trapped

end Sys2Proof.Machine

/-! The store's byte under the console address (20_memory.md R46, the spec's D19, D20): two machines that differ in it alone
answer every bus read alike and stay so related, operation by operation, hence step by step. -/

namespace Sys2Proof.Machine

namespace SameButConsoleCell

variable {s t : State}

/-! ## The relation as a change of the store -/

theorem eq_setMem (h : SameButConsoleCell s t) : t = s.setMem t.mem := by
  obtain ⟨hip, hsp, hcf, hinq, hstatus, hhostIn, hhistory, hparams, -⟩ := h
  cases t
  subst hip hsp hcf hinq hstatus hhostIn hhistory hparams
  rfl

theorem of_setMem {m : Memory} (h : ∀ a, a ≠ s.params.consoleAddr → m.read a = s.mem.read a) :
    SameButConsoleCell s (s.setMem m) :=
  ⟨rfl, rfl, rfl, rfl, rfl, rfl, rfl, rfl, h⟩

/-! ## Register writes -/

theorem setIp (h : SameButConsoleCell s t) {v w : Byte} (hv : w = v) : SameButConsoleCell (s.setIp v) (t.setIp w) :=
  { h with ip_eq := hv }

theorem setSp (h : SameButConsoleCell s t) {v w : Byte} (hv : w = v) : SameButConsoleCell (s.setSp v) (t.setSp w) :=
  { h with sp_eq := hv }

theorem setCf (h : SameButConsoleCell s t) {b c : Bool} (hb : c = b) : SameButConsoleCell (s.setCf b) (t.setCf c) :=
  { h with cf_eq := hb }

theorem setStatus (h : SameButConsoleCell s t) (v : Status) : SameButConsoleCell (s.setStatus v) (t.setStatus v) :=
  { h with status_eq := rfl }

theorem writeFlag (h : SameButConsoleCell s t) {b c : Option Bool} (hb : c = b) :
    SameButConsoleCell (writeFlag b s) (writeFlag c t) := by
  subst hb
  cases c with
  | none => exact h
  | some c => exact h.setCf rfl

/-! ## The bus and the stack -/

/-- A console read does not look at the store. -/
theorem consoleRead (h : SameButConsoleCell s t) :
    (consoleRead t).1 = (consoleRead s).1 ∧ SameButConsoleCell (consoleRead s).2 (consoleRead t).2 := by
  rw [h.eq_setMem, consoleRead_setMem]
  exact ⟨rfl, of_setMem (by simpa using h.mem_eq)⟩

theorem memRead (h : SameButConsoleCell s t) {a b : Byte} (ha : b = a) :
    (memRead b t).1 = (memRead a s).1 ∧ SameButConsoleCell (memRead a s).2 (memRead b t).2 := by
  subst ha
  by_cases hc : b = s.params.consoleAddr
  · rw [memRead_console hc, memRead_console (hc.trans (congrArg Params.consoleAddr h.params_eq).symm)]
    exact h.consoleRead
  · rw [memRead_store hc, memRead_store (by rwa [h.params_eq])]
    exact ⟨h.mem_eq b hc, h⟩

theorem memWrite (h : SameButConsoleCell s t) {a b v w : Byte} (ha : b = a) (hv : w = v) :
    SameButConsoleCell (memWrite a v s) (memWrite b w t) := by
  subst ha hv
  constructor
  case mem_eq =>
    intro a ha
    rw [memWrite_params] at ha
    rw [memWrite_read, memWrite_read, h.params_eq, h.mem_eq a ha]
  case history_eq => rw [memWrite_history, memWrite_history, h.history_eq, h.params_eq]
  all_goals
    simp only [memWrite_ip, memWrite_sp, memWrite_cf, memWrite_inq, memWrite_status, memWrite_hostIn, memWrite_params,
      h.ip_eq, h.sp_eq, h.cf_eq, h.inq_eq, h.status_eq, h.hostIn_eq, h.params_eq]

theorem pushByte (h : SameButConsoleCell s t) {v w : Byte} (hv : w = v) :
    SameButConsoleCell (pushByte v s) (pushByte w t) :=
  (h.setSp (by rw [h.sp_eq])).memWrite (by rw [h.sp_eq]) hv

theorem popByte_fst (h : SameButConsoleCell s t) : (popByte t).1 = (popByte s).1 := (h.memRead h.sp_eq).1

theorem popByte (h : SameButConsoleCell s t) : SameButConsoleCell (popByte s).2 (popByte t).2 := by
  have read := (h.memRead h.sp_eq).2
  exact read.setSp (by rw [read.sp_eq])

/-! ## The frames -/

theorem slot (h : SameButConsoleCell s t) (size : BitVec 2) :
    sizeAddr (Machine.popByte t).2.sp size = sizeAddr (Machine.popByte s).2.sp size := by
  rw [h.popByte.sp_eq]

theorem binaryFrame_fst (h : SameButConsoleCell s t) (f : BinaryFn) (size : BitVec 2) :
    (binaryFrame f size t).1 = (binaryFrame f size s).1 := (h.popByte.memRead (h.slot size)).1

theorem binaryFrame (h : SameButConsoleCell s t) (f : BinaryFn) (size : BitVec 2) :
    SameButConsoleCell (binaryFrame f size s).2 (binaryFrame f size t).2 := by
  obtain ⟨hval, read⟩ := h.popByte.memRead (h.slot size)
  have result := congr (congr (congrArg f hval) h.popByte_fst) read.cf_eq
  exact (read.memWrite (h.slot size) (congrArg Prod.fst result)).writeFlag (congrArg Prod.snd result)

theorem unaryFrame (h : SameButConsoleCell s t) (g : UnaryFn) : SameButConsoleCell (unaryFrame g s) (unaryFrame g t) := by
  have result := congr (congrArg g h.popByte_fst) h.popByte.cf_eq
  exact (h.popByte.pushByte (congrArg Prod.fst result)).writeFlag (congrArg Prod.snd result)

/-! ## Instructions and steps -/

theorem exec (h : SameButConsoleCell s t) (i : Instr) : EndAlike SameButConsoleCell (exec i s) (exec i t) := by
  cases i with
  | psh imm | phn n => exact h.pushByte rfl
  | add size | sub size | iff size | rot size | orr size | and size | xor size | xnd size =>
    exact h.binaryFrame _ size
  | swp size => exact (h.binaryFrame swpFn size).pushByte (h.binaryFrame_fst swpFn size)
  | inc | dec | neg | shl | shr | not | buf => exact h.unaryFrame _
  | dbg => exact h.setStatus _
  | ldo offset =>
    obtain ⟨hval, read⟩ := h.memRead (congrArg (offsetAddr · offset) h.sp_eq)
    exact read.pushByte hval
  | sto offset => exact h.popByte.memWrite (congrArg (offsetAddr · offset) h.popByte.sp_eq) h.popByte_fst
  | lda =>
    obtain ⟨hval, read⟩ := h.popByte.memRead h.popByte_fst
    exact read.pushByte hval
  | sta => exact h.popByte.popByte.memWrite h.popByte_fst h.popByte.popByte_fst
  | ldi => exact h.pushByte h.ip_eq
  | sti => exact h.popByte.setIp h.popByte_fst
  | lds => exact h.pushByte h.sp_eq
  | sts => exact h.popByte.setSp h.popByte_fst
  | clc | sec => exact h.setCf rfl
  | flc => exact h.setCf (congrArg (! ·) h.cf_eq)
  | nop => exact h
  | pop => exact h.setSp (congrArg (· + 1) h.sp_eq)

/-- A fetch that is no read of the cell under the console. -/
theorem fetch (h : SameButConsoleCell s t) (hcell : s.params.fetchViaBus = true ∨ s.ip ≠ s.params.consoleAddr) :
    (fetch t).1 = (fetch s).1 ∧ SameButConsoleCell (fetch s).2 (fetch t).2 := by
  have next : t.ip + 1 = s.ip + 1 := congrArg (· + 1) h.ip_eq
  by_cases hip : s.ip = s.params.consoleAddr
  · have hbus : s.params.fetchViaBus = true := hcell.resolve_right (fun hne => hne hip)
    have hbus' : t.params.fetchViaBus = true := by rw [h.params_eq, hbus]
    have hip' : t.ip = t.params.consoleAddr := by rw [h.params_eq, h.ip_eq, hip]
    rw [fetch_console hbus hip, fetch_console hbus' hip']
    exact ⟨h.consoleRead.1, h.consoleRead.2.setIp next⟩
  · have hip' : t.ip ≠ t.params.consoleAddr := by rwa [h.params_eq, h.ip_eq]
    rw [fetch_store (.inr hip), fetch_store (.inr hip')]
    exact ⟨by rw [h.ip_eq, h.mem_eq _ hip], h.setIp next⟩

end SameButConsoleCell

/-- Settles O21: the related machines fetch the same byte, so they take the same arm of the step. -/
theorem consoleCellIsHidden : Obligations.ConsoleCellIsHidden := by
  intro s t h hcell
  obtain ⟨hbyte, hfetch⟩ := h.fetch hcell
  cases hs : s.status with
  | trapped k =>
    rw [(trappedMachineTakesNoStep s k hs).1, (trappedMachineTakesNoStep t k (by rw [h.status_eq, hs])).1]
    rfl
  | running =>
    have ht : t.status = .running := by rw [h.status_eq, hs]
    have hdec : decode t.params.nibbles (fetch t).1 = decode s.params.nibbles (fetch s).1 := by rw [h.params_eq, hbyte]
    cases hd : decode s.params.nibbles (fetch s).1 with
    | instr i =>
      rw [step_instr hs hd, step_instr ht (hdec.trans hd)]
      exact hfetch.exec i
    | illegal why =>
      rw [step_illegal hs hd, step_illegal ht (hdec.trans hd)]
      exact hfetch.setStatus _

end Sys2Proof.Machine

/-! The decode tree and the encoder (30_encoding.md R73 to R82): which row of the tree a byte falls in, what each row
decodes to, and from these that decode and encode agree, which bytes are Illegal, and the written forms of R86. -/

namespace Sys2Proof.Machine

/-! ## The rows of the decode tree -/

/-- The unary region is what the half 0x80 to 0xBF leaves over from the binary group (30_encoding.md R75, R77). -/
theorem unaryRegion_iff (op : Byte) : unaryRegion op = true ↔
    op[7] = true ∧ op[6] = false ∧ binaryOf (field op 2 4) (field op 0 2) = none := by
  revert op; decide

/-- The upper quarter by its rows (30_encoding.md R74, R78, R79, R80). -/
theorem upper_quarter_rows (op : Byte) :
    (op.toNat / 16 = 12 ↔ op[7] = true ∧ op[6] = true ∧ op[5] = false ∧ op[4] = false) ∧
    (op.toNat / 16 = 13 ↔ op[7] = true ∧ op[6] = true ∧ op[5] = false ∧ op[4] = true) ∧
    (op.toNat / 16 = 14 ↔ op[7] = true ∧ op[6] = true ∧ op[5] = true ∧ op[4] = false) ∧
    (op.toNat / 16 = 15 ↔ op[7] = true ∧ op[6] = true ∧ op[5] = true ∧ op[4] = true) := by
  revert op; decide

/-- A byte that a binary operation's sub-selector selects (R76). -/
theorem decode_of_binaryOf (m : NibbleMaps) {op : Byte} {i : Instr} (h7 : op[7] = true) (h6 : op[6] = false)
    (hb : binaryOf (field op 2 4) (field op 0 2) = some i) : decode m op = .instr i := by
  simp [decode, h7, h6, hb]

/-- A byte of the unary region (R77). -/
theorem decode_of_unaryRegion (m : NibbleMaps) {op : Byte} (h : unaryRegion op = true) :
    decode m op = decodeUnary m.unary op := by
  obtain ⟨h7, h6, hb⟩ := (unaryRegion_iff op).mp h
  simp [decode, h7, h6, hb]

/-- A byte of the row 0xC0 (R78). -/
theorem decode_of_ldo_row (m : NibbleMaps) {op : Byte} (h : op.toNat / 16 = 12) :
    decode m op = .instr (.ldo (op.setWidth 4)) := by
  obtain ⟨h7, h6, h5, h4⟩ := (upper_quarter_rows op).1.mp h
  simp [decode, h7, h6, h5, h4, field_low_nibble]

/-- A byte of the row 0xD0 (R78). -/
theorem decode_of_sto_row (m : NibbleMaps) {op : Byte} (h : op.toNat / 16 = 13) :
    decode m op = .instr (.sto (op.setWidth 4)) := by
  obtain ⟨h7, h6, h5, h4⟩ := (upper_quarter_rows op).2.1.mp h
  simp [decode, h7, h6, h5, h4, field_low_nibble]

/-- A byte of the row 0xE0 (R79). -/
theorem decode_of_reg_row (m : NibbleMaps) {op : Byte} (h : op.toNat / 16 = 14) :
    decode m op = decodeReg m.reg op := by
  obtain ⟨h7, h6, h5, h4⟩ := (upper_quarter_rows op).2.2.1.mp h
  simp [decode, h7, h6, h5, h4]

/-- A byte of the row 0xF0 (R80). -/
theorem decode_of_phn_row (m : NibbleMaps) {op : Byte} (h : op.toNat / 16 = 15) :
    decode m op = .instr (.phn (op.setWidth 4)) := by
  rw [← phnValue_low_nibble h, decode_phnValue, phnValue_low_nibble h]

/-- Every byte falls in a row of the tree, and decodes as that row says (R82). -/
theorem decode_rows (m : NibbleMaps) (op : Byte) :
    (op[7] = false ∧ decode m op = .instr (.psh (op.setWidth 7))) ∨
    (op[7] = true ∧ op[6] = false ∧
      ∃ i, binaryOf (field op 2 4) (field op 0 2) = some i ∧ decode m op = .instr i) ∨
    (unaryRegion op = true ∧ decode m op = decodeUnary m.unary op) ∨
    (op.toNat / 16 = 12 ∧ decode m op = .instr (.ldo (op.setWidth 4))) ∨
    (op.toNat / 16 = 13 ∧ decode m op = .instr (.sto (op.setWidth 4))) ∨
    (op.toNat / 16 = 14 ∧ decode m op = decodeReg m.reg op) ∨
    (op.toNat / 16 = 15 ∧ decode m op = .instr (.phn (op.setWidth 4))) := by
  obtain ⟨ldo, sto, reg, phn⟩ := upper_quarter_rows op
  cases h7 : op[7] with
  | false => exact .inl ⟨rfl, decode_of_bit7_clear m h7⟩
  | true =>
    cases h6 : op[6] with
    | false =>
      cases hb : binaryOf (field op 2 4) (field op 0 2) with
      | some i => exact .inr (.inl ⟨rfl, rfl, i, rfl, decode_of_binaryOf m h7 h6 hb⟩)
      | none =>
        have region := (unaryRegion_iff op).mpr ⟨h7, h6, hb⟩
        exact .inr (.inr (.inl ⟨region, decode_of_unaryRegion m region⟩))
    | true =>
      refine .inr (.inr (.inr ?_))
      cases h5 : op[5] <;> cases h4 : op[4]
      · exact .inl ⟨ldo.mpr ⟨h7, h6, h5, h4⟩, decode_of_ldo_row m (ldo.mpr ⟨h7, h6, h5, h4⟩)⟩
      · exact .inr (.inl ⟨sto.mpr ⟨h7, h6, h5, h4⟩, decode_of_sto_row m (sto.mpr ⟨h7, h6, h5, h4⟩)⟩)
      · exact .inr (.inr (.inl ⟨reg.mpr ⟨h7, h6, h5, h4⟩, decode_of_reg_row m (reg.mpr ⟨h7, h6, h5, h4⟩)⟩))
      · exact .inr (.inr (.inr ⟨phn.mpr ⟨h7, h6, h5, h4⟩, decode_of_phn_row m (phn.mpr ⟨h7, h6, h5, h4⟩)⟩))

/-! ## The two groups that the nibble maps decode -/

/-- A byte decodes in the unary group as the operation its low nibble finds, or as Illegal. -/
theorem decodeUnary_cases (m : UnaryNibble) (op : Byte) :
    (∃ u, unaryOf m (op.setWidth 4) = some u ∧ decodeUnary m op = .instr u.instr) ∨
    (unaryOf m (op.setWidth 4) = none ∧ decodeUnary m op = .illegal (.unassignedUnaryNibble (op.setWidth 4))) := by
  cases hu : unaryOf m (op.setWidth 4) with
  | some u => exact .inl ⟨u, rfl, by simp [decodeUnary, field_low_nibble, hu]⟩
  | none => exact .inr ⟨rfl, by simp [decodeUnary, field_low_nibble, hu]⟩

/-- A byte decodes in the register/flag group as the operation its low nibble finds, or as Illegal. -/
theorem decodeReg_cases (m : RegNibble) (op : Byte) :
    (∃ r, regOf m (op.setWidth 4) = some r ∧ decodeReg m op = .instr r.instr) ∨
    (regOf m (op.setWidth 4) = none ∧ decodeReg m op = .illegal (.unassignedRegNibble (op.setWidth 4))) := by
  cases hr : regOf m (op.setWidth 4) with
  | some r => exact .inl ⟨r, rfl, by simp [decodeReg, field_low_nibble, hr]⟩
  | none => exact .inr ⟨rfl, by simp [decodeReg, field_low_nibble, hr]⟩

/-- Under an injective map a low nibble decodes in the unary group as the operation that has it. -/
theorem decodeUnary_of {m : UnaryNibble} (hm : m.wf = true) {op : Byte} {u : UnaryOp} (hu : op.setWidth 4 = m.of u) :
    decodeUnary m op = .instr u.instr := by
  simp [decodeUnary, field_low_nibble, hu, unaryOf_of m hm]

/-- Under an injective map a low nibble decodes in the register/flag group as the operation that has it. -/
theorem decodeReg_of {m : RegNibble} (hm : m.wf = true) {op : Byte} {r : RegOp} (hr : op.setWidth 4 = m.of r) :
    decodeReg m op = .instr r.instr := by
  simp [decodeReg, field_low_nibble, hr, regOf_of m hm]

/-- The Illegal bytes are those of the two groups whose low nibble no operation takes (R83). -/
theorem decode_illegal_iff (m : NibbleMaps) (op : Byte) :
    (∃ why, decode m op = .illegal why) ↔
      (unaryRegion op = true ∧ ∀ u, m.unary.of u ≠ op.setWidth 4) ∨
        (op.toNat / 16 = 14 ∧ ∀ r, m.reg.of r ≠ op.setWidth 4) := by
  constructor
  · rintro ⟨why, h⟩
    rcases decode_rows m op with ⟨-, hd⟩ | ⟨-, -, i, -, hd⟩ | ⟨hrow, hd⟩ | ⟨-, hd⟩ | ⟨-, hd⟩ | ⟨hrow, hd⟩ | ⟨-, hd⟩
    case inr.inr.inl =>
      rcases decodeUnary_cases m.unary op with ⟨u, -, hu⟩ | ⟨hnone, -⟩
      · cases h.symm.trans (hd.trans hu)
      · exact .inl ⟨hrow, unaryOf_eq_none.mp hnone⟩
    case inr.inr.inr.inr.inr.inl =>
      rcases decodeReg_cases m.reg op with ⟨r, -, hr⟩ | ⟨hnone, -⟩
      · cases h.symm.trans (hd.trans hr)
      · exact .inr ⟨hrow, regOf_eq_none.mp hnone⟩
    all_goals cases h.symm.trans hd
  · rintro (⟨hrow, hnone⟩ | ⟨hrow, hnone⟩)
    · rcases decodeUnary_cases m.unary op with ⟨u, hu, -⟩ | ⟨-, hd⟩
      · exact absurd (of_unaryOf hu) (hnone u)
      · exact ⟨_, (decode_of_unaryRegion m hrow).trans hd⟩
    · rcases decodeReg_cases m.reg op with ⟨r, hr, -⟩ | ⟨-, hd⟩
      · exact absurd (of_regOf hr) (hnone r)
      · exact ⟨_, (decode_of_reg_row m hrow).trans hd⟩

/-- Settles O25: the whole unary region decodes by the low nibble. -/
theorem unaryAliasesDecodeAlike : Obligations.UnaryAliasesDecodeAlike := by
  intro m u op hm hrow hu
  obtain ⟨hunary, -⟩ := Bool.and_eq_true_iff.mp hm
  rw [decode_of_unaryRegion m hrow, decodeUnary_of hunary hu]

/-! ## The words the encoder writes -/

/-- A byte is its row over its low nibble. -/
theorem row_append_low_nibble {op : Byte} {row : Nibble} (h : op.toNat / 16 = row.toNat) :
    (row ++ op.setWidth 4 : Byte) = op := by
  apply BitVec.eq_of_toNat_eq
  rw [BitVec.toNat_append, ← Nat.shiftLeft_add_eq_or_of_lt (op.setWidth 4).isLt, ← h, BitVec.toNat_setWidth,
    Nat.shiftLeft_eq]
  omega

/-- The row and the low nibble of a row over a nibble. -/
theorem row_append (row n : Nibble) :
    (row ++ n : Byte).toNat / 16 = row.toNat ∧ (row ++ n : Byte).setWidth 4 = n := by
  refine ⟨?_, BitVec.setWidth_append_eq_right⟩
  rw [BitVec.toNat_append, ← Nat.shiftLeft_add_eq_or_of_lt n.isLt, Nat.shiftLeft_eq]
  omega

/-- 0xB over a nibble is a byte of the unary region. -/
theorem unaryRegion_row (n : Nibble) : unaryRegion (0xB#4 ++ n) = true := by
  revert n; decide

/-- A unary operation is written as 0xB over its nibble, under every map (R77; log 12). -/
theorem encode_unaryInstr (m : NibbleMaps) (u : UnaryOp) : encode m u.instr = 0xB#4 ++ m.unary.of u := by
  cases u <;> rfl

/-- The word of a binary operation has its sub-selector and its size in their places (R75, R76). -/
theorem binaryWord_fields (sel : Nibble) (size : BitVec 2) :
    let op : Byte := 0b10#2 ++ sel ++ size
    op[7] = true ∧ op[6] = false ∧ field op 2 4 = sel ∧ field op 0 2 = size := by
  revert sel size; decide

/-- A byte of the half 0x80 to 0xBF is written from its two fields. -/
theorem binaryWord_of_fields {op : Byte} (h7 : op[7] = true) (h6 : op[6] = false) :
    (0b10#2 ++ field op 2 4 ++ field op 0 2 : Byte) = op := by
  revert op; decide

/-- A binary operation is written as its sub-selector and its size under the bits 10 (R76, R81). -/
theorem encode_of_binaryOf (m : NibbleMaps) {sel : Nibble} {size : BitVec 2} {i : Instr}
    (h : binaryOf sel size = some i) : encode m i = 0b10#2 ++ sel ++ size := by
  unfold binaryOf at h
  repeat' split at h
  all_goals cases h
  all_goals subst sel; rfl

/-! ## Decode and encode -/

theorem decode_encode_binary (m : NibbleMaps) {sel : Nibble} {size : BitVec 2} {i : Instr}
    (h : binaryOf sel size = some i) : decode m (encode m i) = .instr i := by
  obtain ⟨h7, h6, hsel, hsize⟩ := binaryWord_fields sel size
  rw [encode_of_binaryOf m h]
  exact decode_of_binaryOf m h7 h6 (by rw [hsel, hsize, h])

theorem decode_encode_unary {m : NibbleMaps} (hm : m.wf = true) (u : UnaryOp) :
    decode m (encode m u.instr) = .instr u.instr := by
  obtain ⟨hunary, -⟩ := Bool.and_eq_true_iff.mp hm
  rw [encode_unaryInstr, decode_of_unaryRegion m (unaryRegion_row _), decodeUnary_of hunary (row_append _ _).2]

theorem decode_encode_reg {m : NibbleMaps} (hm : m.wf = true) (r : RegOp) :
    decode m (encode m r.instr) = .instr r.instr := by
  obtain ⟨-, hreg⟩ := Bool.and_eq_true_iff.mp hm
  rw [encode_regInstr, decode_of_reg_row m (row_append _ _).1, decodeReg_of hreg (row_append _ _).2]

theorem decode_encode_psh (m : NibbleMaps) (imm : BitVec 7) : decode m (encode m (.psh imm)) = .instr (.psh imm) := by
  have word : (imm.setWidth 8)[7] = false ∧ (imm.setWidth 8).setWidth 7 = imm := by
    revert imm; decide
  rw [encode_psh_eq_setWidth, decode_of_bit7_clear m word.1, word.2]

/-- A byte with bit 7 clear is its own literal. -/
theorem literal_of_bit7_clear {op : Byte} (h7 : op[7] = false) : (op.setWidth 7).setWidth 8 = op := by
  revert op; decide

/-- Settles O22: each group by its row of the tree, the two groups of the nibble maps by the maps' being injective. -/
theorem decodeOfEncode : Obligations.DecodeOfEncode := by
  intro m i hm
  cases i with
  | psh imm => exact decode_encode_psh m imm
  | add size => exact decode_encode_binary m (sel := 0x0) (size := size) rfl
  | sub size => exact decode_encode_binary m (sel := 0x1) (size := size) rfl
  | iff size => exact decode_encode_binary m (sel := 0x4) (size := size) rfl
  | swp size => exact decode_encode_binary m (sel := 0x5) (size := size) rfl
  | rot size => exact decode_encode_binary m (sel := 0x6) (size := size) rfl
  | orr size => exact decode_encode_binary m (sel := 0x8) (size := size) rfl
  | and size => exact decode_encode_binary m (sel := 0x9) (size := size) rfl
  | xor size => exact decode_encode_binary m (sel := 0xA) (size := size) rfl
  | xnd size => exact decode_encode_binary m (sel := 0xB) (size := size) rfl
  | inc => exact decode_encode_unary hm .inc
  | dec => exact decode_encode_unary hm .dec
  | neg => exact decode_encode_unary hm .neg
  | shl => exact decode_encode_unary hm .shl
  | shr => exact decode_encode_unary hm .shr
  | not => exact decode_encode_unary hm .not
  | buf => exact decode_encode_unary hm .buf
  | dbg => exact decode_encode_unary hm .dbg
  | ldo offset => rw [encode, decode_of_ldo_row m (row_append _ _).1, (row_append _ _).2]
  | sto offset => rw [encode, decode_of_sto_row m (row_append _ _).1, (row_append _ _).2]
  | lda => exact decode_encode_reg hm .lda
  | sta => exact decode_encode_reg hm .sta
  | ldi => exact decode_encode_reg hm .ldi
  | sti => exact decode_encode_reg hm .sti
  | lds => exact decode_encode_reg hm .lds
  | sts => exact decode_encode_reg hm .sts
  | clc => exact decode_encode_reg hm .clc
  | sec => exact decode_encode_reg hm .sec
  | flc => exact decode_encode_reg hm .flc
  | nop => exact decode_encode_reg hm .nop
  | pop => exact decode_encode_reg hm .pop
  | phn n => exact decode_phnValue m n

/-- Every unary operation is of the unary group. -/
theorem isUnary_instr (u : UnaryOp) : isUnary u.instr = true := by
  cases u <;> decide

/-- Settles O23: row by row of the tree, only the unary region holds bytes that are not written back. -/
theorem encodeOfDecodeUpToUnaryAlias : Obligations.EncodeOfDecodeUpToUnaryAlias := by
  intro m op i h
  rcases decode_rows m op with ⟨h7, hd⟩ | ⟨h7, h6, j, hb, hd⟩ | ⟨hrow, hd⟩ | ⟨hrow, hd⟩ | ⟨hrow, hd⟩ | ⟨hrow, hd⟩ |
    ⟨hrow, hd⟩
  case inl =>
    cases h.symm.trans hd
    exact .inl ((encode_psh_eq_setWidth m _).trans (literal_of_bit7_clear h7))
  case inr.inl =>
    cases h.symm.trans hd
    exact .inl ((encode_of_binaryOf m hb).trans (binaryWord_of_fields h7 h6))
  case inr.inr.inl =>
    rcases decodeUnary_cases m.unary op with ⟨u, hu, hinstr⟩ | ⟨-, hillegal⟩
    · cases h.symm.trans (hd.trans hinstr)
      exact .inr ⟨hrow, isUnary_instr u, by rw [encode_unaryInstr, of_unaryOf hu]⟩
    · cases h.symm.trans (hd.trans hillegal)
  case inr.inr.inr.inr.inr.inl =>
    rcases decodeReg_cases m.reg op with ⟨r, hr, hinstr⟩ | ⟨-, hillegal⟩
    · cases h.symm.trans (hd.trans hinstr)
      exact .inl (by rw [encode_regInstr, of_regOf hr, row_append_low_nibble hrow])
    · cases h.symm.trans (hd.trans hillegal)
  all_goals
    cases h.symm.trans hd
    exact .inl (row_append_low_nibble hrow)

/-- Settles O54: 0xE over a nibble is the register/flag row, whose Illegal bytes `decode_illegal_iff` gives. -/
theorem regNibbleSelectsTheOperation : Obligations.RegNibbleSelectsTheOperation := by
  intro m n hm
  obtain ⟨-, hreg⟩ := Bool.and_eq_true_iff.mp hm
  obtain ⟨hrow, hnib⟩ := row_append 0xE#4 n
  have outside : unaryRegion (0xE#4 ++ n) = false := by
    clear hrow hnib
    revert n; decide
  refine ⟨fun i => ⟨fun h => ?_, ?_⟩, ?_⟩
  · rw [decode_of_reg_row m hrow] at h
    rcases decodeReg_cases m.reg (0xE#4 ++ n) with ⟨r, hr, hinstr⟩ | ⟨-, hillegal⟩
    · exact ⟨r, (of_regOf hr).trans hnib, Decoded.instr.inj (h.symm.trans hinstr)⟩
    · cases h.symm.trans hillegal
  · rintro ⟨r, hr, rfl⟩
    rw [decode_of_reg_row m hrow, decodeReg_of hreg (hnib.trans hr.symm)]
  · rw [decode_illegal_iff, outside, hnib]
    simp [hrow]

/-! ## Illegal bytes -/

/-- Settles O10: such a byte is Illegal, and its trap follows the fetch alone. -/
theorem illegalByteTrapsAfterFetch : Obligations.IllegalByteTrapsAfterFetch := by
  intro s hrun hbyte
  obtain ⟨why, hdec⟩ := (decode_illegal_iff s.params.nibbles (fetch s).1).mpr hbyte
  refine ⟨_, step_illegal hrun hdec, rfl, fetch_ip s, fetch_sp s, fetch_cf s, fetch_params s, fun a => ?_, rfl, rfl, rfl⟩
  rw [raiseTrap_eq, State.setStatus_mem, fetch_mem]

/-- REF leaves the unary nibbles from 8 on unassigned (R77). -/
theorem refUnaryNibble_unassigned (n : Nibble) : (∀ u, refUnaryNibble.of u ≠ n) ↔ 8 ≤ n.toNat := by
  rw [← unaryOf_eq_none]
  revert n; decide

/-- REF leaves the register/flag nibbles from 11 on unassigned (R79). -/
theorem refRegNibble_unassigned (n : Nibble) : (∀ r, refRegNibble.of r ≠ n) ↔ 11 ≤ n.toNat := by
  rw [← regOf_eq_none]
  revert n; decide

/-- Settles O27: the nibbles that REF leaves unassigned, over the rows of the two groups; the count by evaluation. -/
theorem referenceIllegalBytes : Obligations.ReferenceIllegalBytes := by
  refine ⟨fun op => ?_, by decide⟩
  have hbyte : op.toNat < 256 := op.isLt
  rw [decode_illegal_iff, refNibbles, refUnaryNibble_unassigned, refRegNibble_unassigned, BitVec.toNat_setWidth,
    unaryRegion, decide_eq_true_iff]
  omega

/-- Settles O26 by decoding the nine words. -/
theorem referenceWordsDecode : Obligations.ReferenceWordsDecode := by
  refine ⟨?_, ?_, ?_, ?_, ?_, ?_, ?_, ?_, ?_⟩ <;> decide

end Sys2Proof.Machine

/-! The written forms of 30_encoding.md R86: `assemble` refuses exactly the operands that are out of range
for the mnemonic's form, and on the others the encoder gives the byte that the section writes. -/

namespace Sys2Proof.Machine

/-! ## What assembles -/

/-- `Written.wf` is the check that `assemble` makes. -/
theorem Written.wf_iff (w : Written) : w.wf = true ↔ ∃ i, w.assemble = some i := by
  unfold Written.assemble
  split <;> simp [*]

/-- A written form whose operand is out of range for its mnemonic is refused. -/
theorem Written.assemble_eq_none {w : Written} (h : w.wf = false) : w.assemble = none := by
  simp [Written.assemble, h]

theorem assemble_psh {n : Int} (h : 0 ≤ n ∧ n ≤ 127) :
    Written.assemble ⟨.psh, some n⟩ = some (.psh (BitVec.ofInt 7 n)) :=
  if_pos (decide_eq_true h)

theorem assemble_phn {n : Int} (h : (-16 ≤ n ∧ n ≤ -1) ∨ (0xF0 ≤ n ∧ n ≤ 0xFF)) :
    Written.assemble ⟨.phn, some n⟩ = some (.phn (BitVec.ofInt 4 n)) :=
  if_pos (decide_eq_true h)

/-- The binary mnemonics with their sub-selectors (30_encoding.md R76). -/
def sizeMnemonics : List (Mnemonic × Nat) :=
  [(.add, 0x0), (.sub, 0x1), (.iff, 0x4), (.swp, 0x5), (.rot, 0x6), (.orr, 0x8), (.and, 0x9), (.xor, 0xA), (.xnd, 0xB)]

/-- A mnemonic of the binary group takes a size, and names the operation that its sub-selector selects. -/
theorem sizeMnemonics_assemble {p : Mnemonic × Nat} (hp : p ∈ sizeMnemonics) :
    p.2 < 16 ∧ p.1.form = .size ∧
      ∀ v, OperandForm.size.admits v = true → ∃ i, Written.assemble ⟨p.1, v⟩ = some i ∧
        binaryOf (BitVec.ofNat 4 p.2) (BitVec.ofInt 2 (v.getD 0)) = some i := by
  simp only [sizeMnemonics, List.mem_cons, List.not_mem_nil, or_false] at hp
  rcases hp with rfl | rfl | rfl | rfl | rfl | rfl | rfl | rfl | rfl
  all_goals exact ⟨by decide, rfl, fun v hv => ⟨_, if_pos hv, rfl⟩⟩

/-- The two offset mnemonics with their rows (30_encoding.md R78). -/
def offsetMnemonics : List (Mnemonic × Nat) := [(.ldo, 0xC0), (.sto, 0xD0)]

/-- The mnemonics that take no operand, with their bytes under REF (30_encoding.md R85). -/
def bareMnemonics : List (Mnemonic × Nat) :=
  [(.inc, 0xB0), (.dec, 0xB1), (.neg, 0xB2), (.shl, 0xB3), (.shr, 0xB4), (.not, 0xB5), (.buf, 0xB6), (.dbg, 0xB7),
    (.lda, 0xE0), (.sta, 0xE1), (.ldi, 0xE2), (.sti, 0xE3), (.lds, 0xE4), (.sts, 0xE5), (.clc, 0xE6), (.sec, 0xE7),
    (.flc, 0xE8), (.nop, 0xE9), (.pop, 0xEA)]

theorem bareMnemonics_form : ∀ p ∈ bareMnemonics, p.1.form = .none := by decide

theorem bareMnemonics_encode : ∀ p ∈ bareMnemonics,
    (Written.assemble ⟨p.1, none⟩).map (fun i => (encode refNibbles i).toNat) = some p.2 := by decide

/-! ## The bytes -/

/-- The byte of a binary operation, from its fields (R76, R81). -/
theorem binaryWord_toNat (sel : Nibble) (size : BitVec 2) :
    (0b10#2 ++ sel ++ size : Byte).toNat = 0x80 ||| (sel.toNat <<< 2) ||| size.toNat := by
  revert sel size; decide

/-- The byte of a row over a nibble. -/
theorem row_append_toNat (row n : Nibble) : (row ++ n : Byte).toNat = (row.toNat <<< 4) ||| n.toNat :=
  BitVec.toNat_append row n

/-- An operand in range is its own field. -/
theorem ofInt_toNat {w : Nat} {n : Int} (h0 : 0 ≤ n) (h : n < 2 ^ w) : (BitVec.ofInt w n).toNat = n.toNat := by
  rw [BitVec.toNat_ofInt, Int.emod_eq_of_lt h0 (by exact_mod_cast h)]

theorem psh_written (m : NibbleMaps) {n : Int} (h0 : 0 ≤ n) (h : n ≤ 127) :
    ∃ i, Written.assemble ⟨.psh, some n⟩ = some i ∧ ((encode m i).toNat : Int) = n := by
  refine ⟨_, assemble_psh ⟨h0, h⟩, ?_⟩
  rw [encode_psh_eq_setWidth, BitVec.toNat_setWidth_of_le (by decide), ofInt_toNat h0 (by omega)]
  omega

/-- A negative literal is the low nibble of the byte that `phn` pushes (R86, R180). -/
theorem phn_written_negative (m : NibbleMaps) {n : Int} (h0 : -16 ≤ n) (h : n ≤ -1) :
    ∃ i, Written.assemble ⟨.phn, some n⟩ = some i ∧ ((encode m i).toNat : Int) = (0xF0 ||| (n + 16).toNat : Nat) := by
  have nibble : (BitVec.ofInt 4 n).toNat = (n + 16).toNat := by
    rw [BitVec.toNat_ofInt]
    omega
  refine ⟨_, assemble_phn (.inl ⟨h0, h⟩), ?_⟩
  rw [encode, row_append_toNat, nibble]
  rfl

/-- The other spelling of a negative literal: its byte. -/
theorem phn_written_byte (m : NibbleMaps) {n : Int} (h0 : 0xF0 ≤ n) (h : n ≤ 0xFF) :
    ∃ i, Written.assemble ⟨.phn, some n⟩ = some i ∧ ((encode m i).toNat : Int) = n := by
  have nibble : ((BitVec.ofInt 4 n).toNat : Int) = n - 240 := by
    rw [BitVec.toNat_ofInt]
    omega
  refine ⟨_, assemble_phn (.inr ⟨h0, h⟩), ?_⟩
  rw [encode_phn_eq_phnValue, phnValue_toNat]
  omega

theorem binary_written (m : NibbleMaps) {p : Mnemonic × Nat} (hp : p ∈ sizeMnemonics) {n : Int} (h0 : 0 ≤ n)
    (h : n ≤ 3) : ∃ i, Written.assemble ⟨p.1, some n⟩ = some i ∧
      (encode m i).toNat = 0x80 ||| (p.2 <<< 2) ||| n.toNat := by
  obtain ⟨hsel, -, hasm⟩ := sizeMnemonics_assemble hp
  obtain ⟨i, hi, hb⟩ := hasm (some n) (decide_eq_true ⟨h0, h⟩)
  refine ⟨i, hi, ?_⟩
  rw [encode_of_binaryOf m hb, binaryWord_toNat, BitVec.toNat_ofNat, Nat.mod_eq_of_lt hsel, Option.getD_some,
    ofInt_toNat h0 (by omega)]

/-- A bare binary mnemonic means size 0. -/
theorem binary_written_bare {p : Mnemonic × Nat} (hp : p ∈ sizeMnemonics) :
    Written.assemble ⟨p.1, none⟩ = Written.assemble ⟨p.1, some 0⟩ := by
  obtain ⟨-, -, hasm⟩ := sizeMnemonics_assemble hp
  obtain ⟨i, hi, hb⟩ := hasm none rfl
  obtain ⟨j, hj, hb'⟩ := hasm (some 0) rfl
  rw [hi, hj, ← hb, ← hb']
  rfl

theorem offset_written (m : NibbleMaps) {p : Mnemonic × Nat} (hp : p ∈ offsetMnemonics) {n : Int} (h0 : 0 ≤ n)
    (h : n ≤ 15) : ∃ i, Written.assemble ⟨p.1, some n⟩ = some i ∧ (encode m i).toNat = p.2 ||| n.toNat := by
  simp only [offsetMnemonics, List.mem_cons, List.not_mem_nil, or_false] at hp
  rcases hp with rfl | rfl
  all_goals
    refine ⟨_, if_pos (decide_eq_true ⟨h0, h⟩), ?_⟩
    exact (row_append_toNat _ _).trans (congrArg _ (ofInt_toNat (n := n) h0 (by omega)))

theorem offsetMnemonics_form : ∀ p ∈ offsetMnemonics, p.1.form = .offset := by decide

/-- Settles O28, form by form: the bytes above, and the refusals from what each form admits. -/
theorem writtenFormsAssemble : Obligations.WrittenFormsAssemble := by
  have refused {q : Mnemonic} {f : OperandForm} {v : Option Int} (hq : q.form = f) (hv : f.admits v = false) :
      Written.assemble ⟨q, v⟩ = none := Written.assemble_eq_none (by rw [Written.wf, hq, hv])
  refine ⟨Written.wf_iff, fun m n => ⟨psh_written m, fun h => refused rfl ?_, phn_written_negative m, phn_written_byte m,
    fun h => refused rfl ?_, fun p hp => ⟨binary_written m hp, fun h => ?_, binary_written_bare hp⟩,
    fun p hp => ⟨offset_written m hp, fun h => ?_⟩, fun p hp => ⟨?_, ?_⟩, by decide⟩⟩
  · exact decide_eq_false (by omega)
  · exact decide_eq_false (by omega)
  · exact refused (sizeMnemonics_assemble hp).2.1 (decide_eq_false (by omega))
  · exact refused (offsetMnemonics_form p hp) (decide_eq_false (by omega))
  · exact Option.map_eq_some_iff.mp (bareMnemonics_encode p hp)
  · exact refused (bareMnemonics_form p hp) rfl

end Sys2Proof.Machine

/-! The two ALU groups (41_binary_alu.md, 42_unary_alu.md): what each function computes, and that its instruction completes
with that result, from the frame of its group. -/

namespace Sys2Proof.Machine

/-! ## The binary group -/

/-- An instruction that is the binary frame of a function completes with that function's result and flag (R110). -/
theorem binaryCompletes_of_frame {i : BitVec 2 → Instr} {f : BinaryFn} {r : Byte → Byte → Bool → Byte}
    {c : Byte → Byte → Bool → Bool} (hexec : ∀ size s, exec (i size) s = .next (binaryFrame f size s).2)
    (hr : ∀ a b cf, (f a b cf).1 = r a b cf) (hc : ∀ a b cf, (f a b cf).2.getD cf = c a b cf) :
    BinaryCompletes i r c := by
  intro size s b addr a
  refine ⟨_, hexec size s, ?_⟩
  rw [← hr, ← hc]
  exact (binaryFrame_leaves f size s).2

/-- `add` computes the sum modulo 256 (R111). -/
theorem ofNat_exactSum (a b : Byte) (c : Bool) :
    BitVec.ofNat 8 (exactSum a b c) = a + b + (if c then 1 else 0) := by
  apply BitVec.eq_of_toNat_eq
  cases c <;> simp [exactSum]

/-- `sub` computes the difference modulo 256 (R112). -/
theorem ofNat_wideDifference (a b : Byte) (c : Bool) :
    BitVec.ofNat 8 (wideDifference a b c) = a - b - (if c then 1 else 0) := by
  have carry : (if c then 1 else 0 : Byte).toNat = c.toNat := by cases c <;> rfl
  have hc := c.toNat_le
  apply BitVec.eq_of_toNat_eq
  rw [wideDifference, BitVec.toNat_ofNat, BitVec.toNat_sub, BitVec.toNat_sub, carry]
  omega

/-- The difference modulo 65536 is above 255 exactly when there is a borrow (R112). -/
theorem wideDifference_gt_iff (a b : Byte) (c : Bool) :
    255 < ((a.toNat : Int) - b.toNat - c.toNat) % 65536 ↔ a.toNat < b.toNat + c.toNat := by
  have hc := c.toNat_le
  omega

theorem carryOut_wideDifference (a b : Byte) (c : Bool) :
    carryOut (wideDifference a b c) = decide (255 < ((a.toNat : Int) - b.toNat - c.toNat) % 65536) := by
  rw [carryOut, wideDifference, decide_eq_decide]
  omega

/-- `rot` computes the rotation: of the bits shifted out above, the low byte keeps none (R115). -/
theorem rotFn_fst (a b : Byte) (c : Bool) : (rotFn a b c).1 = a.rotateLeft (b.toNat % 8) := by
  have low : a.toNat >>> (8 - b.toNat % 8) < 2 ^ 8 := (Nat.shiftRight_le _ _).trans_lt a.isLt
  apply BitVec.eq_of_toNat_eq
  rw [BitVec.rotateLeft_def, rotFn, BitVec.toNat_ofNat, Nat.or_mod_two_pow, Nat.mod_eq_of_lt low, Nat.mod_mod,
    BitVec.toNat_or, BitVec.toNat_shiftLeft, BitVec.toNat_ushiftRight]

/-- Settles O31. -/
theorem addStoresTheSumAndTheCarry : Obligations.AddStoresTheSumAndTheCarry :=
  ⟨fun _ _ => rfl, binaryCompletes_of_frame (f := addFn) (fun _ _ => rfl) ofNat_exactSum fun _ _ _ => rfl⟩

/-- Settles O32. -/
theorem subStoresTheDifferenceAndTheBorrow : Obligations.SubStoresTheDifferenceAndTheBorrow :=
  ⟨fun _ _ => rfl,
    binaryCompletes_of_frame (f := subFn) (fun _ _ => rfl) ofNat_wideDifference carryOut_wideDifference,
    wideDifference_gt_iff⟩

/-- Settles O33. -/
theorem iffStoresTheOperandTheCarrySelects : Obligations.IffStoresTheOperandTheCarrySelects :=
  ⟨fun _ _ => rfl, binaryCompletes_of_frame (f := iffFn) (fun _ _ => rfl) (fun _ _ _ => rfl) fun _ _ _ => rfl⟩

/-- Settles O34: after the frame the push writes the old `A` at the slot that `B` was popped from. -/
theorem swpExchangesTwoSlots : Obligations.SwpExchangesTwoSlots := by
  refine ⟨fun _ _ => rfl, fun size s => ?_⟩
  intro b addr a
  obtain ⟨hval, leaves⟩ := binaryFrame_leaves swpFn size s
  have pushed := leaves.pushByte (binaryFrame swpFn size s).1
  rw [BitVec.add_sub_cancel, hval] at pushed
  refine ⟨pushByte (binaryFrame swpFn size s).1 (binaryFrame swpFn size s).2, rfl, ?_⟩
  rw [hval]
  exact pushed

/-- Settles O35. -/
theorem rotRotatesLeftAndClearsTheCarry : Obligations.RotRotatesLeftAndClearsTheCarry :=
  ⟨fun _ _ => rfl, binaryCompletes_of_frame (f := rotFn) (fun _ _ => rfl) rotFn_fst fun _ _ _ => rfl⟩

/-- Settles O36: the zero test of `xor` is that the operands are equal. -/
theorem orrAndXorStoreTheBitsAndTheZeroTest : Obligations.OrrAndXorStoreTheBitsAndTheZeroTest := by
  have equal (a b : Byte) (c : Bool) : (xorFn a b c).2.getD c = decide (a = b) :=
    decide_eq_decide.mpr BitVec.xor_eq_zero_iff
  exact ⟨fun _ _ => ⟨rfl, rfl, rfl⟩,
    binaryCompletes_of_frame (f := orrFn) (fun _ _ => rfl) (fun _ _ _ => rfl) fun _ _ _ => rfl,
    binaryCompletes_of_frame (f := andFn) (fun _ _ => rfl) (fun _ _ _ => rfl) fun _ _ _ => rfl,
    binaryCompletes_of_frame (f := xorFn) (fun _ _ => rfl) (fun _ _ _ => rfl) equal⟩

/-- Settles O37. -/
theorem xndClearsTheSlotAndSetsTheCarry : Obligations.XndClearsTheSlotAndSetsTheCarry :=
  ⟨fun _ _ => rfl, binaryCompletes_of_frame (f := xndFn) (fun _ _ => rfl) (fun _ _ _ => rfl) fun _ _ _ => rfl⟩

/-! ## The unary group -/

/-- An instruction that is the unary frame of a function completes with that function's result and flag (R130). -/
theorem unaryCompletes_of_frame {i : Instr} {g : UnaryFn} {r : Byte → Bool → Byte} {c : Byte → Bool → Bool}
    (hexec : ∀ s, exec i s = .next (unaryFrame g s)) (hr : ∀ x cf, (g x cf).1 = r x cf)
    (hc : ∀ x cf, (g x cf).2.getD cf = c x cf) : UnaryCompletes i r c := by
  intro s x
  refine ⟨_, hexec s, ?_⟩
  rw [← hr, ← hc]
  exact unaryFrame_leaves g s

/-- `neg` computes the two's complement (R133). -/
theorem negFn_fst (x : Byte) (c : Bool) : (negFn x c).1 = -x :=
  BitVec.eq_of_toNat_eq (by rw [negFn, BitVec.toNat_ofNat, BitVec.toNat_neg])

/-- `shl` puts the carry under bits 6 to 0 (R134). -/
theorem shlFn_fst (x : Byte) (c : Bool) : (shlFn x c).1 = x.setWidth 7 ++ BitVec.ofBool c := by
  revert x c; decide

/-- `shr` puts the carry over bits 7 to 1 (R135). -/
theorem shrFn_fst (x : Byte) (c : Bool) : (shrFn x c).1 = BitVec.ofBool c ++ x.extractLsb' 1 7 := by
  revert x c; decide

/-- The complement is zero exactly on 0xFF (R136). -/
theorem isZero_not (x : Byte) : isZero (~~~x) = decide (x = 0xFF) :=
  decide_eq_decide.mpr ⟨fun h => by rw [← BitVec.not_not (b := x), h]; rfl, fun h => by rw [h]; rfl⟩

/-- Settles O40. -/
theorem incDecNegReplaceTheTop : Obligations.IncDecNegReplaceTheTop :=
  ⟨fun _ => ⟨rfl, rfl, rfl⟩, rfl, rfl, rfl,
    unaryCompletes_of_frame (g := incFn) (fun _ => rfl) (fun _ _ => rfl) fun _ _ => rfl,
    unaryCompletes_of_frame (g := decFn) (fun _ => rfl) (fun _ _ => rfl) fun _ _ => rfl,
    unaryCompletes_of_frame (g := negFn) (fun _ => rfl) negFn_fst fun _ _ => rfl⟩

/-- Settles O41: the flag of `shl` is bit 7, which is the most significant. -/
theorem shlShrShiftThroughTheCarry : Obligations.ShlShrShiftThroughTheCarry :=
  ⟨fun _ => ⟨rfl, rfl⟩, rfl, rfl,
    unaryCompletes_of_frame (g := shlFn) (fun _ => rfl) shlFn_fst fun x _ => x.msb_eq_getLsbD_last.symm,
    unaryCompletes_of_frame (g := shrFn) (fun _ => rfl) shrFn_fst fun _ _ => rfl⟩

/-- Settles O42. -/
theorem notBufReplaceTheTopAndTestForZero : Obligations.NotBufReplaceTheTopAndTestForZero :=
  ⟨fun _ => ⟨rfl, rfl⟩, rfl, rfl,
    unaryCompletes_of_frame (g := notFn) (fun _ => rfl) (fun _ _ => rfl) fun x _ => isZero_not x,
    unaryCompletes_of_frame (g := bufFn) (fun _ => rfl) (fun _ _ => rfl) fun _ _ => rfl⟩

/-- Settles O11: `dbg` takes its trap and nothing else. -/
theorem dbgTakesDebugRequest : Obligations.DbgTakesDebugRequest :=
  ⟨fun _ => rfl, fun m => encode_unaryInstr m .dbg, rfl⟩

end Sys2Proof.Machine

/-! Multi-byte numbers (41_binary_alu.md R120): a binary operation run `n` times with size `n - 1` works through two `n`-byte
numbers on the stack from their low bytes on. Addition and subtraction are one induction, with the sign as a parameter. -/

namespace Sys2Proof.Machine

/-! ## Numbers in the store -/

theorem add_one_add_ofNat (base : Byte) (k : Nat) :
    base + 1 + BitVec.ofNat 8 k = base + BitVec.ofNat 8 (k + 1) := by
  rw [Nat.add_comm k, BitVec.ofNat_add, BitVec.add_assoc]
  rfl

/-- The low byte, and then the rest of the number. -/
theorem numberAt_succ (m : Memory) (base : Byte) (n : Nat) :
    numberAt m base (n + 1) = (m.read base).toNat + 256 * numberAt m (base + 1) n := rfl

/-- A number is read from its own bytes alone. -/
theorem numberAt_congr {m m' : Memory} {base : Byte} {n : Nat}
    (h : ∀ k, k < n → m'.read (base + BitVec.ofNat 8 k) = m.read (base + BitVec.ofNat 8 k)) :
    numberAt m' base n = numberAt m base n := by
  induction n generalizing base with
  | zero => rfl
  | succ n ih =>
    have low : m'.read base = m.read base := by simpa using h 0 (Nat.succ_pos n)
    have high : numberAt m' (base + 1) n = numberAt m (base + 1) n := ih fun k hk => by
      rw [add_one_add_ofNat]
      exact h (k + 1) (Nat.succ_lt_succ hk)
    rw [numberAt_succ, numberAt_succ, low, high]

/-- Addresses at different distances below 256 from a base are different. -/
theorem offset_ne {base : Byte} {j k : Nat} (hj : j < 256) (hk : k < 256) (hne : j ≠ k) :
    base + BitVec.ofNat 8 j ≠ base + BitVec.ofNat 8 k := by
  intro h
  have := congrArg BitVec.toNat h
  simp only [BitVec.toNat_add, BitVec.toNat_ofNat] at this
  omega

/-! ## One digit -/

/-- The slot of size `n - 1` is `n` above the top of stack. -/
theorem sizeAddr_pred (sp : Byte) {n : Nat} (h1 : 1 ≤ n) (h4 : n ≤ 4) :
    sizeAddr (sp + 1) (BitVec.ofNat 2 (n - 1)) = sp + BitVec.ofNat 8 n := by
  have size : (BitVec.ofNat 2 (n - 1)).setWidth 8 = BitVec.ofNat 8 (n - 1) :=
    BitVec.setWidth_ofNat_of_le_of_lt (by decide) (by omega)
  rw [sizeAddr, size, add_one_add_ofNat, Nat.sub_add_cancel h1]

/-- Away from the console the binary frame changes `sp`, the flag and the byte of its slot. -/
theorem binaryFrame_store (f : BinaryFn) {size : BitVec 2} {s : State} {addr : Byte}
    (haddr : sizeAddr (s.sp + 1) size = addr) (hsp : s.sp ≠ s.params.consoleAddr) (hslot : addr ≠ s.params.consoleAddr) :
    let r := f (s.mem.read addr) (s.mem.read s.sp) s.cf
    (binaryFrame f size s).2 = writeFlag r.2 ((s.setSp (s.sp + 1)).setMem (s.mem.write addr r.1)) := by
  subst haddr
  have hslot' : sizeAddr (s.sp + 1) size ≠ (s.setSp (s.sp + 1)).params.consoleAddr := hslot
  simp only [binaryFrame, popByte_eq, memRead_store hsp, State.setSp_sp, memRead_store hslot', memWrite_store _ hslot',
    State.setSp_mem, State.setSp_cf]

/-- One digit of a multi-byte operation of sign `σ`: the result is `A + σ (B + cf)`, less the carry out times 256 in the
same sense. -/
def DigitStep (σ : Int) (f : BinaryFn) : Prop :=
  ∀ (a b : Byte) (c : Bool), ((f a b c).1.toNat : Int) =
    a.toNat + σ * (b.toNat + c.toNat - 256 * ((f a b c).2.getD c).toNat)

theorem digitStep_add : DigitStep 1 addFn := by
  intro a b c
  have hc := c.toNat_le
  have carry : (((addFn a b c).2.getD c).toNat : Int) = if 255 < a.toNat + b.toNat + c.toNat then 1 else 0 := by
    by_cases h : 255 < a.toNat + b.toNat + c.toNat <;> simp [addFn, carryOut, exactSum, h]
  rw [carry, addFn, BitVec.toNat_ofNat, exactSum]
  split <;> omega

theorem digitStep_sub : DigitStep (-1) subFn := by
  intro a b c
  have hc := c.toNat_le
  have borrow : (((subFn a b c).2.getD c).toNat : Int) = if a.toNat < b.toNat + c.toNat then 1 else 0 := by
    rw [subFn, Option.getD_some, carryOut_wideDifference]
    by_cases h : a.toNat < b.toNat + c.toNat <;> simp [h, wideDifference_gt_iff]
  rw [borrow, subFn, BitVec.toNat_ofNat, wideDifference]
  split <;> omega

/-! ## The chain -/

/-- The first `k` of `n` digits: from `s`, with the numbers `n` bytes apart, `t` holds the low `k` bytes of the result, and
nothing but `sp`, `cf` and those bytes has changed. -/
structure ChainResult (σ : Int) (n k : Nat) (s t : State) : Prop where
  sp_eq : t.sp = s.sp + BitVec.ofNat 8 k
  value : (numberAt t.mem (s.sp + BitVec.ofNat 8 n) k : Int) =
    numberAt s.mem (s.sp + BitVec.ofNat 8 n) k + σ * (numberAt s.mem s.sp k + s.cf.toNat - 256 ^ k * t.cf.toNat)
  outside : ∀ a, (∀ j, j < k → a ≠ s.sp + BitVec.ofNat 8 n + BitVec.ofNat 8 j) → t.mem.read a = s.mem.read a
  rest : t = { s with sp := t.sp, cf := t.cf, mem := t.mem }

/-- The low digit, and then the chain on the higher ones: the digit's byte is not read again, since the lower number ends
where the upper begins. -/
theorem ChainResult.cons {σ : Int} {f : BinaryFn} (hf : DigitStep σ f) {n k : Nat} (hk : k + 1 ≤ n) (hn : n ≤ 4)
    {s u t : State} {addr : Byte} (haddr : s.sp + BitVec.ofNat 8 n = addr)
    {r : Byte × Option Bool} (hr : r = f (s.mem.read addr) (s.mem.read s.sp) s.cf)
    (hu : u = writeFlag r.2 ((s.setSp (s.sp + 1)).setMem (s.mem.write addr r.1))) (ht : ChainResult σ n k u t) :
    ChainResult σ n (k + 1) s t := by
  obtain ⟨hsp, value, outside, rest⟩ := ht
  have usp : u.sp = s.sp + 1 := by simp [hu]
  have ubase : u.sp + BitVec.ofNat 8 n = addr + 1 := by
    rw [usp, ← haddr, BitVec.add_assoc, BitVec.add_comm 1, ← BitVec.add_assoc]
  have ucf : u.cf = r.2.getD s.cf := by simp [hu]
  have umem (a : Byte) : u.mem.read a = if addr = a then r.1 else s.mem.read a := by simp [hu, Memory.read_write]
  have apart {j : Nat} (hj : j < 256) (hne : n ≠ j) : addr ≠ s.sp + BitVec.ofNat 8 j :=
    haddr ▸ offset_ne (by omega) hj hne
  have above (j : Nat) : addr + 1 + BitVec.ofNat 8 j = s.sp + BitVec.ofNat 8 (n + (j + 1)) := by
    rw [add_one_add_ofNat, ← haddr, BitVec.add_assoc, BitVec.ofNat_add n]
  have digit : t.mem.read addr = r.1 := by
    rw [outside addr, umem, if_pos rfl]
    intro j hj
    rw [ubase, above]
    exact apart (by omega) (by omega)
  have upper : numberAt u.mem (addr + 1) k = numberAt s.mem (addr + 1) k :=
    numberAt_congr fun j hj => by rw [umem, above, if_neg (apart (by omega) (by omega))]
  have lower : numberAt u.mem (s.sp + 1) k = numberAt s.mem (s.sp + 1) k :=
    numberAt_congr fun j hj => by rw [umem, add_one_add_ofNat, if_neg (apart (by omega) (by omega))]
  constructor
  case sp_eq => rw [hsp, usp, add_one_add_ofNat]
  case value =>
    have low := hf (s.mem.read addr) (s.mem.read s.sp) s.cf
    rw [← hr, ← ucf] at low
    rw [ubase, usp, upper, lower] at value
    rw [haddr, numberAt_succ, numberAt_succ, numberAt_succ, digit, Nat.cast_add, Nat.cast_mul, low, value]
    push_cast
    ring
  case outside =>
    intro a ha
    have hslot : addr ≠ a := by simpa [haddr, eq_comm] using ha 0 (Nat.succ_pos k)
    rw [outside a, umem, if_neg hslot]
    intro j hj
    rw [ubase, add_one_add_ofNat, ← haddr]
    exact ha (j + 1) (Nat.succ_lt_succ hj)
  case rest =>
    rw [rest]
    simp [hu]

theorem execTimes_succ {i : Instr} {n : Nat} {s t : State} (h : exec i s = .next t) :
    execTimes i (n + 1) s = execTimes i n t := by
  simp only [execTimes, h]

/-- The first `k` of `n` digits, when none of the bytes they read or write is the console's. -/
theorem execTimes_chain {σ : Int} {f : BinaryFn} (hf : DigitStep σ f) {i : BitVec 2 → Instr}
    (hexec : ∀ size s, exec (i size) s = .next (binaryFrame f size s).2) {n k : Nat} (hk : k ≤ n) (hn : n ≤ 4)
    (s : State) (hoff : ∀ j, j < n + k → s.sp + BitVec.ofNat 8 j ≠ s.params.consoleAddr) :
    ∃ t, execTimes (i (BitVec.ofNat 2 (n - 1))) k s = some t ∧ ChainResult σ n k s t := by
  induction k generalizing s with
  | zero => exact ⟨s, rfl, by simp, by simp [numberAt], fun _ _ => rfl, rfl⟩
  | succ k ih =>
    have first := binaryFrame_store f (sizeAddr_pred s.sp (by omega) hn) (by simpa using hoff 0 (by omega))
      (hoff n (by omega))
    obtain ⟨t, hrun, result⟩ := ih (by omega) (binaryFrame f (BitVec.ofNat 2 (n - 1)) s).2 fun j hj => by
      have inside := hoff (j + 1) (by omega)
      rwa [binaryFrame_sp, (BusRun.binaryFrame f _ s).params_eq, add_one_add_ofNat]
    exact ⟨t, (execTimes_succ (hexec _ s)).trans hrun, .cons hf hk hn rfl rfl first result⟩

/-- Settles O38: the chain of sign 1, all `n` digits. -/
theorem addChainAddsMultiByteNumbers : Obligations.AddChainAddsMultiByteNumbers := by
  intro n s h1 h4 hoff
  obtain ⟨t, hrun, hsp, value, outside, rest⟩ :=
    execTimes_chain digitStep_add (i := .add) (fun _ _ => rfl) le_rfl h4 s fun j hj => hoff j (by omega)
  rw [← hsp] at value outside
  refine ⟨t, hrun, hsp, ?_, outside, rest⟩
  zify
  rw [value]
  ring

/-- Settles O39: the chain of sign -1, all `n` digits. -/
theorem subChainSubtractsMultiByteNumbers : Obligations.SubChainSubtractsMultiByteNumbers := by
  intro n s h1 h4 hoff
  obtain ⟨t, hrun, hsp, value, outside, rest⟩ :=
    execTimes_chain digitStep_sub (i := .sub) (fun _ _ => rfl) le_rfl h4 s fun j hj => hoff j (by omega)
  rw [← hsp] at value outside
  refine ⟨t, hrun, hsp, ?_, outside, rest⟩
  zify
  rw [value]
  ring

end Sys2Proof.Machine

/-! The offset group (43_offset.md), and the two pushes of a register (44_register_flag.md R162, R164). -/

namespace Sys2Proof.Machine

/-! ## What each instruction does -/

/-- `ldo`: the bus read at `sp + offset`, then a push (R150). -/
theorem exec_ldo (offset : Nibble) (s : State) :
    let v := memRead (offsetAddr s.sp offset) s
    exec (.ldo offset) s = .next (pushByte v.1 v.2) := rfl

/-- `sto`: the bus read at `sp`, then a bus write with `sp` one higher (R151). -/
theorem exec_sto (offset : Nibble) (s : State) :
    let v := memRead s.sp s
    exec (.sto offset) s = .next (memWrite (offsetAddr (s.sp + 1) offset) v.1 (v.2.setSp (s.sp + 1))) := by
  simp only [exec, execSto, popByte_eq, State.setSp_sp]

/-- `ldi` is one push of `ip` (R162). -/
theorem exec_ldi (s : State) : exec .ldi s = .next (pushByte s.ip s) := rfl

/-- `lds` is one push of `sp` as it stood (R164). -/
theorem exec_lds (s : State) : exec .lds s = .next (pushByte s.sp s) := rfl

/-- A push that is not to the console stands at the new top of stack. -/
theorem pushByte_read_top (v : Byte) {s : State} (h : s.sp - 1 ≠ s.params.consoleAddr) :
    (pushByte v s).mem.read (s.sp - 1) = v := by
  rw [pushByte_eq, memWrite_read, if_pos ⟨rfl, h⟩]

/-! ## The statements -/

/-- Settles O43: the read is made before the push lowers `sp`. -/
theorem ldoPushesTheByteAtTheOffset : Obligations.LdoPushesTheByteAtTheOffset := by
  intro offset m s v
  have pushed := pushByte_leaves v.1 v.2
  rw [memRead_ip, memRead_sp, memRead_cf] at pushed
  exact ⟨rfl, _, exec_ldo offset s, pushed⟩

/-- Settles O44: after the read one bus write, with `sp` one higher. -/
theorem stoStoresThePoppedByteAtTheOffset : Obligations.StoStoresThePoppedByteAtTheOffset := by
  intro offset m s v
  have written := (setSp_leaves v.2 (s.sp + 1)).memWrite (offsetAddr (s.sp + 1) offset) v.1
  rw [memRead_ip, memRead_cf] at written
  exact ⟨rfl, _, exec_sto offset s, written⟩

/-- Settles O47: one push of `ip`, which the fetch has made one higher. -/
theorem ldiPushesTheNextAddress : Obligations.LdiPushesTheNextAddress := by
  refine ⟨fun m => encode_regInstr m .ldi, rfl, fun s => ⟨_, exec_ldi s, pushByte_leaves s.ip s⟩, ?_⟩
  intro s hrun hdec hsp
  refine ⟨_, (step_instr hrun hdec).trans (exec_ldi _), ?_⟩
  have top := pushByte_read_top (fetch s).2.ip (s := (fetch s).2) (by rwa [fetch_sp, fetch_params])
  rw [fetch_sp] at top
  exact top.trans (fetch_ip s)

/-- Settles O49: one push of `sp`. -/
theorem ldsPushesTheOldStackPointer : Obligations.LdsPushesTheOldStackPointer :=
  ⟨fun m => encode_regInstr m .lds, rfl, fun s => ⟨_, exec_lds s, pushByte_leaves s.sp s⟩⟩

end Sys2Proof.Machine

/-! The carry flag and the stack pointer over all instructions (10_state.md R26, R27): what each leaves in them, and that an
instruction outside the list of readers does the same whatever the flag is. -/

namespace Sys2Proof.Machine

/-! ## Operations do not look at the flag -/

theorem hostAsk_setCf (s : State) (c : Bool) : hostAsk (s.setCf c) = ((hostAsk s).1, (hostAsk s).2.setCf c) := by
  rcases hostAsk_cases s with ⟨answer, rest, hin, h⟩ | ⟨hin, h⟩
  · rw [h, hostAsk, State.setCf_hostIn, hin]
    rfl
  · rw [h, hostAsk, State.setCf_hostIn, hin]
    rfl

theorem consoleRead_setCf (s : State) (c : Bool) :
    consoleRead (s.setCf c) = ((consoleRead s).1, (consoleRead s).2.setCf c) := by
  rcases consoleRead_cases s with ⟨b, rest, hq, h⟩ | ⟨hq, h⟩
  · rw [h, consoleRead, State.setCf_inq, hq]
    rfl
  · rw [h, consoleRead, State.setCf_inq, hq]
    simp only [hostAsk_setCf]

theorem memRead_setCf (a : Byte) (s : State) (c : Bool) :
    memRead a (s.setCf c) = ((memRead a s).1, (memRead a s).2.setCf c) := by
  by_cases h : a = s.params.consoleAddr
  · rw [memRead_console (s := s.setCf c) h, memRead_console h, consoleRead_setCf]
  · rw [memRead_store (s := s.setCf c) h, memRead_store h]
    rfl

theorem memWrite_setCf (a v : Byte) (s : State) (c : Bool) : memWrite a v (s.setCf c) = (memWrite a v s).setCf c := by
  by_cases h : a = s.params.consoleAddr
  · rw [memWrite_console (s := s.setCf c) v h, memWrite_console v h]
    rfl
  · rw [memWrite_store (s := s.setCf c) v h, memWrite_store v h]
    rfl

theorem pushByte_setCf (v : Byte) (s : State) (c : Bool) : pushByte v (s.setCf c) = (pushByte v s).setCf c :=
  memWrite_setCf (s.sp - 1) v (s.setSp (s.sp - 1)) c

theorem popByte_setCf (s : State) (c : Bool) : popByte (s.setCf c) = ((popByte s).1, (popByte s).2.setCf c) := by
  rw [popByte_eq, popByte_eq, State.setCf_sp, memRead_setCf]
  rfl

/-- Writing the flag over another value of it. -/
theorem writeFlag_setCf (w : Option Bool) (s : State) (c : Bool) :
    writeFlag w (s.setCf c) = (writeFlag w s).setCf (w.getD c) := by
  cases w <;> rfl

/-- The binary frame of a function that does not look at the flag. -/
theorem binaryFrame_setCf {f : BinaryFn} (hf : ∀ a b c d, f a b c = f a b d) (size : BitVec 2) (s : State) (c : Bool) :
    ∃ d, binaryFrame f size (s.setCf c) = ((binaryFrame f size s).1, (binaryFrame f size s).2.setCf d) := by
  simp only [binaryFrame, popByte_setCf, State.setCf_sp, memRead_setCf, hf _ _ _ false, memWrite_setCf, writeFlag_setCf]
  exact ⟨_, rfl⟩

/-- The unary frame of a function that does not look at the flag. -/
theorem unaryFrame_setCf {g : UnaryFn} (hg : ∀ x c d, g x c = g x d) (s : State) (c : Bool) :
    ∃ d, unaryFrame g (s.setCf c) = (unaryFrame g s).setCf d := by
  simp only [unaryFrame, popByte_setCf, hg _ _ false, pushByte_setCf, writeFlag_setCf]
  exact ⟨_, rfl⟩

theorem exec_setCf_of_binaryFrame {i : Instr} {f : BinaryFn} {size : BitVec 2}
    (hexec : ∀ s, exec i s = .next (binaryFrame f size s).2) (hf : ∀ a b c d, f a b c = f a b d) (s : State) (c : Bool) :
    ∃ t d, exec i s = .next t ∧ exec i (s.setCf c) = .next (t.setCf d) := by
  obtain ⟨d, hd⟩ := binaryFrame_setCf hf size s c
  exact ⟨_, d, hexec s, by rw [hexec, hd]⟩

theorem exec_setCf_of_unaryFrame {i : Instr} {g : UnaryFn} (hexec : ∀ s, exec i s = .next (unaryFrame g s))
    (hg : ∀ x c d, g x c = g x d) (s : State) (c : Bool) :
    ∃ t d, exec i s = .next t ∧ exec i (s.setCf c) = .next (t.setCf d) := by
  obtain ⟨d, hd⟩ := unaryFrame_setCf hg s c
  exact ⟨_, d, hexec s, by rw [hexec, hd]⟩

/-- An instruction outside the list of readers does the same whatever the flag is, but for the flag itself (R27). -/
theorem exec_setCf {i : Instr} (hi : readsCarry i = false) (s : State) (c : Bool) :
    ∃ t d, exec i s = .next t ∧ exec i (s.setCf c) = .next (t.setCf d) := by
  cases i with
  | add size | sub size | iff size | shl | shr | flc => cases hi
  | psh imm | phn n | ldi | lds => exact ⟨_, c, rfl, congrArg _ (pushByte_setCf _ s c)⟩
  | rot size | orr size | and size | xor size | xnd size =>
    exact exec_setCf_of_binaryFrame (fun _ => rfl) (fun _ _ _ _ => rfl) s c
  | swp size =>
    obtain ⟨d, hd⟩ := binaryFrame_setCf (f := swpFn) (fun _ _ _ _ => rfl) size s c
    exact ⟨_, d, rfl, by simp only [exec, execSwp, hd, pushByte_setCf]⟩
  | inc | dec | neg | not | buf => exact exec_setCf_of_unaryFrame (fun _ => rfl) (fun _ _ _ => rfl) s c
  | ldo offset => exact ⟨_, c, rfl, by simp only [exec, execLdo, State.setCf_sp, memRead_setCf, pushByte_setCf]⟩
  | sto offset => exact ⟨_, c, rfl, by simp only [exec, execSto, popByte_setCf, State.setCf_sp, memWrite_setCf]⟩
  | lda => exact ⟨_, c, rfl, by simp only [exec, execLda, popByte_setCf, memRead_setCf, pushByte_setCf]⟩
  | sta => exact ⟨_, c, rfl, by simp only [exec, execSta, popByte_setCf, memWrite_setCf]⟩
  | sti => exact ⟨_, c, rfl, by simp only [exec, execSti, popByte_setCf]; rfl⟩
  | sts => exact ⟨_, c, rfl, by simp only [exec, execSts, popByte_setCf]; rfl⟩
  | clc => exact ⟨_, false, rfl, rfl⟩
  | sec => exact ⟨_, true, rfl, rfl⟩
  | dbg | nop | pop => exact ⟨_, c, rfl, rfl⟩

/-! ## The two tables -/

/-- Settles O14: the flag after an instruction is what its function writes, by the frame of its group. -/
theorem carryFlagTable : Obligations.CarryFlagTable := by
  refine ⟨rfl, fun _ => rfl, fun i s t h => ?table, fun i s c hi => ?readers, fun s t h htrap => ?trapped⟩
  case table =>
    intro b a
    have binary (f : BinaryFn) (size : BitVec 2) :
        (binaryFrame f size s).2.cf = (f (a size) b.1 s.cf).2.getD s.cf := (binaryFrame_leaves f size s).2.cf_eq
    have unary (g : UnaryFn) : (unaryFrame g s).cf = (g b.1 s.cf).2.getD s.cf := (unaryFrame_leaves g s).cf_eq
    cases i with
    | add size => cases h; exact binary addFn size
    | sub size =>
      cases h
      rw [binary subFn size, subFn, Option.getD_some, carryOut_wideDifference]
      exact decide_eq_decide.mpr (wideDifference_gt_iff _ _ _)
    | xor size => cases h; exact (binary xorFn size).trans (decide_eq_decide.mpr BitVec.xor_eq_zero_iff)
    | iff size | rot size | orr size | and size | xnd size => cases h; exact binary _ size
    | swp size => cases h; rw [pushByte_cf]; exact binary swpFn size
    | shl => cases h; exact (unary shlFn).trans b.1.msb_eq_getLsbD_last.symm
    | not => cases h; exact (unary notFn).trans (isZero_not b.1)
    | inc | dec | neg | shr | buf => cases h; exact unary _
    | psh imm | phn n | ldi | lds => cases h; exact pushByte_cf _ s
    | ldo offset => cases h; rw [pushByte_cf, memRead_cf]
    | sto offset => cases h; rw [memWrite_cf, popByte_cf]
    | lda => cases h; rw [pushByte_cf, memRead_cf, popByte_cf]
    | sta => cases h; rw [memWrite_cf, popByte_cf, popByte_cf]
    | sti => cases h; rw [State.setIp_cf, popByte_cf]
    | sts => cases h; rw [State.setSp_cf, popByte_cf]
    | dbg | clc | sec | flc | nop | pop => cases h; rfl
  case readers =>
    obtain ⟨t, d, ht, hu⟩ := exec_setCf hi s c
    exact ⟨t, t.setCf d, ht, hu, rfl⟩
  case trapped =>
    cases hstatus : t.status with
    | running => exact absurd (by rw [State.trap, hstatus]) htrap
    | trapped k => rw [step_trapped h hstatus, State.setStatus_cf, fetch_cf]

/-- Settles O15: the stack operations of each instruction, one after another. -/
theorem stackPointerTable : Obligations.StackPointerTable := by
  intro i s t h
  cases i with
  | psh imm | phn n | ldi | lds => cases h; exact pushByte_sp _ s
  | add size | sub size | iff size | rot size | orr size | and size | xor size | xnd size =>
    cases h; exact binaryFrame_sp _ size s
  | swp size => cases h; rw [pushByte_sp, binaryFrame_sp, BitVec.add_sub_cancel]
  | inc | dec | neg | shl | shr | not | buf => cases h; exact (unaryFrame_leaves _ s).sp_eq
  | ldo offset => cases h; rw [pushByte_sp, memRead_sp]
  | sto offset => cases h; rw [memWrite_sp, popByte_sp]
  | lda => cases h; rw [pushByte_sp, memRead_sp, popByte_sp, BitVec.add_sub_cancel]
  | sta => cases h; rw [memWrite_sp, popByte_popByte, State.setSp_sp]
  | sti => cases h; rw [State.setIp_sp, popByte_sp]
  | sts => cases h; exact popByte_fst s
  | dbg | clc | sec | flc | nop | pop => cases h; rfl

end Sys2Proof.Machine

/-! Reset, launch and the bus: the image load and `Reset()` (70_reset_and_hazards.md R220, R222), the two sides of a bus write
and of a console read (20_memory.md R43 to R45), and the coherence of fetches with stores (R58). -/

namespace Sys2Proof.Machine

/-! ## Reset and launch -/

/-- Settles O2. -/
theorem resetRestartsAnyState : Obligations.ResetRestartsAnyState := fun _ => rfl

/-- Settles O1: the store is the loaded image, which the reset keeps and reads the seed from. -/
theorem launchLoadsImageAndSeedsConsole : Obligations.LaunchLoadsImageAndSeedsConsole := by
  intro p answers image s
  have read : ∀ a : Byte, s.mem.read a = image[a.toNat] := State.loadImage_read (State.powerOn p answers) image
  have seed : s.inq = [s.mem.read p.consoleAddr] := rfl
  exact ⟨rfl, rfl, rfl, rfl, by rw [seed, read], read, State.loadImage_wf _ image rfl, rfl, rfl, rfl⟩

/-- The launch state over the loaded store (70_reset_and_hazards.md R228). -/
theorem launch_of_loaded {p : Params} {answers : List HostAnswer} {image : Vector Byte 256} {m : Memory}
    (h : ((State.powerOn p answers).loadImage image).mem = m) :
    State.launch p answers image = { State.powerOn p answers with mem := m, inq := [m.read p.consoleAddr] } := by
  subst h
  rfl

/-- Loading zeros into the store of zeros leaves no cell listed. -/
theorem loadImage_zeros (p : Params) :
    ((State.powerOn p []).loadImage (Vector.replicate 256 0x00)).mem = [] := by
  refine Memory.eq_of_read_eq _ _ (State.loadImage_wf _ _ rfl) rfl fun a => ?_
  rw [State.loadImage_read, Vector.getElem_replicate]
  rfl

/-- Settles O3: the two states have the same store by `loadImage_zeros`, and then the same seed. -/
theorem resetStateIsAWellFormedLaunch : Obligations.ResetStateIsAWellFormedLaunch := by
  refine ⟨rfl, rfl, rfl, rfl, by decide, ?_⟩
  rw [launch_of_loaded (loadImage_zeros referenceParams)]
  rfl

/-! ## The bus -/

/-- Settles O17: the two sides of the bus decode. -/
theorem busWriteInterceptsConsole : Obligations.BusWriteInterceptsConsole := by
  intro a v s
  refine ⟨fun hc => ?_, fun hc => ?_⟩
  · rw [memWrite_console v hc]
    exact ⟨rfl, List.filterMap_append⟩
  · rw [memWrite_store v hc]
    exact ⟨rfl, fun b => by rw [State.setMem_mem, Memory.read_write]; simp only [eq_comm]⟩

/-- With nothing pushed back a console read is one answer of the host (R44). -/
theorem consoleRead_of_drained {s : State} (h : s.inq = []) :
    consoleRead s = (answerByte (hostAsk s).1, (hostAsk s).2) := by
  rw [consoleRead, h]

theorem hostAsk_of_ready {s : State} {answer : HostAnswer} {rest : List HostAnswer} (h : s.hostIn = answer :: rest) :
    hostAsk s = (answer, (s.setHostIn rest).record (.asked answer)) := by
  rw [hostAsk, h]

theorem hostAsk_of_none_ready {s : State} (h : s.hostIn = []) :
    hostAsk s = (Config.hostInput s.history, s.record (.asked (Config.hostInput s.history))) := by
  rw [hostAsk, h]

/-- Settles O18: the pushback list first, then the host's ready answers, then the free value. -/
theorem consoleReadTakesPushbackThenHost : Obligations.ConsoleReadTakesPushbackThenHost := by
  refine ⟨fun s b rest hq => ?_, fun s answer rest hq hin => ?_, fun s hq hin => ?_, rfl, fun _ => rfl⟩
  · rw [consoleRead, hq]
    rfl
  · rw [consoleRead_of_drained hq, hostAsk_of_ready hin]
    rfl
  · rw [consoleRead_of_drained hq, hostAsk_of_none_ready hin]
    rfl

/-- Replacing the store changes what a fetch reads only through the byte at `ip`. -/
theorem fetch_setMem_fst {s : State} {m : Memory} (h : m.read s.ip = s.mem.read s.ip) :
    (fetch (s.setMem m)).1 = (fetch s).1 := by
  by_cases hfetch : s.params.fetchViaBus = true ∧ s.ip = s.params.consoleAddr
  · obtain ⟨hbus, hip⟩ := hfetch
    rw [fetch_console (s := s.setMem m) hbus hip, fetch_console hbus hip, consoleRead_setMem]
  · have hstore : s.params.fetchViaBus = false ∨ s.ip ≠ s.params.consoleAddr := by
      simpa only [not_and_or, Bool.not_eq_true] using hfetch
    rw [fetch_store (s := s.setMem m) hstore, fetch_store hstore]
    exact h

/-- Settles O20: the write reaches the store, at its own address and no other. -/
theorem fetchSeesTheLatestStore : Obligations.FetchSeesTheLatestStore := by
  intro a v s hc
  rw [memWrite_store v hc]
  refine ⟨?_, fun b hb => fetch_setMem_fst (s := s.setIp b) (Memory.read_write_other s.mem v hb)⟩
  rw [fetch_store (.inr hc)]
  exact Memory.read_write_same s.mem a v

end Sys2Proof.Machine
